-- ==== Sys2Proof/Word.lean ====
section
/-! DEFINITION. The word types of the engine (spec/00_scope.md R5, R6). Every value is unsigned. -/

namespace Sys2Proof

/-- `u8`: a value in 0..255 (R6). -/
abbrev Byte := BitVec 8

/-- `u32`: a value in 0..2^32-1; `+` on it is addition modulo 2^32 (R6, R7). -/
abbrev Word := BitVec 32

/-- `u64`: the byte count and the length field (R5, R28, R110). -/
abbrev Count := BitVec 64

/-- One block: exactly 64 bytes (R5). -/
abbrev Block := Vector Byte 64

/-- The digest: 16 bytes (R5, R34). -/
abbrev Digest := Vector Byte 16

end Sys2Proof
end

