-- ==== Sys2Proof/Machine/Operands.lean ====
section
/-! DEFINITION. Byte order and operand assembly (spec/42_byte_order.md R180 to R182, spec/30_encoding.md R73).
Every multi-byte value is little-endian (spec/20_memory.md R51, R185). -/

namespace Sys2Proof.Machine

/-- R180 `le32`: `b0`, the byte at the lowest index, is the least significant. -/
def le32 (b0 b1 b2 b3 : Byte) : Word :=
  b0.setWidth 32 ||| b1.setWidth 32 <<< 8 ||| b2.setWidth 32 <<< 16 ||| b3.setWidth 32 <<< 24

/-- R181 `le32bytes`. -/
def le32bytes (w : Word) : Vector Byte 4 :=
  #v[w.extractLsb' 0 8, w.extractLsb' 8 8, w.extractLsb' 16 8, w.extractLsb' 24 8]

/-- R182 `le64bytes`. -/
def le64bytes (l : Count) : Vector Byte 8 :=
  #v[l.extractLsb' 0 8, l.extractLsb' 8 8, l.extractLsb' 16 8, l.extractLsb' 24 8,
     l.extractLsb' 32 8, l.extractLsb' 40 8, l.extractLsb' 48 8, l.extractLsb' 56 8]

/-- R73: the LEN operand of UPDATE from frame bytes 1 to 4, an unsigned count. -/
def lenField (f1 f2 f3 f4 : Byte) : Nat := (le32 f1 f2 f3 f4).toNat

end Sys2Proof.Machine
end

