-- ==== Sys2Proof/Syntax.lean ====
section
/-! DEFINITION. The commands of the engine, one constructor per row of spec/opcode_table.json (spec/30_encoding.md R74). -/

namespace Sys2Proof

/-- A command the host issues.  UPDATE's only operands are LEN and PAYLOAD (R73); LEN is the number of the payload's
bytes, so the payload carries both. -/
inductive Instr where
  /-- INIT, 0x01 (R102). -/
  | init
  /-- UPDATE, 0x02, LEN, PAYLOAD (R103). -/
  | update (payload : List Byte)
  /-- FINAL, 0x03 (R107). -/
  | final
  /-- RDSTATUS, 0x04 (R113). -/
  | rdstatus
  /-- RDDIGEST, 0x05 (R114). -/
  | rddigest
deriving DecidableEq, Repr

end Sys2Proof
end

