-- ==== Sys2Proof/Decode.lean ====
section
/-! DEFINITION. Frames, the decoder and the encoder (spec/30_encoding.md R70 to R79). -/

namespace Sys2Proof

open Sys2Proof.Machine (lenField le32bytes)

/-- What stands at the head of the command stream.  Decoding is total (R79). -/
inductive Frame where
  /-- A complete frame of one of the five commands, and the bytes after it. -/
  | command (i : Instr) (rest : List Byte)
  /-- An illegal CMD byte: a frame of its own, one byte long (R75). -/
  | illegal (b : Byte) (rest : List Byte)
  /-- No complete frame has arrived: no byte at all, or an UPDATE whose LEN or payload bytes are missing (R78). -/
  | incomplete
deriving DecidableEq, Repr

/-- The CMD byte of each command (R74). -/
def cmdInit : Byte := 0x01
def cmdUpdate : Byte := 0x02
def cmdFinal : Byte := 0x03
def cmdRdstatus : Byte := 0x04
def cmdRddigest : Byte := 0x05

/-- An UPDATE frame from the byte after CMD on: LEN, then LEN payload bytes (R71, R73). -/
def decodeUpdate : List Byte → Frame
  | f1 :: f2 :: f3 :: f4 :: body =>
    if lenField f1 f2 f3 f4 ≤ body.length then
      .command (.update (body.take (lenField f1 f2 f3 f4))) (body.drop (lenField f1 f2 f3 f4))
    else .incomplete
  | _ => .incomplete

/-- The decoder compares all 8 bits of CMD (R72, R74); every other value is illegal in every state (R75, R76). -/
def decodeFrame : List Byte → Frame
  | [] => .incomplete
  | cmd :: rest =>
    if cmd = cmdInit then .command .init rest
    else if cmd = cmdUpdate then decodeUpdate rest
    else if cmd = cmdFinal then .command .final rest
    else if cmd = cmdRdstatus then .command .rdstatus rest
    else if cmd = cmdRddigest then .command .rddigest rest
    else .illegal cmd rest

/-- The frame of a command (R71, R73, R74). -/
def encode : Instr → List Byte
  | .init => [cmdInit]
  | .update payload => cmdUpdate :: ((le32bytes (BitVec.ofNat 32 payload.length)).toList ++ payload)
  | .final => [cmdFinal]
  | .rdstatus => [cmdRdstatus]
  | .rddigest => [cmdRddigest]

/-- The frames of a command sequence follow one another with no padding and no separators (R70). -/
def encodeAll (is : List Instr) : List Byte := (is.map encode).flatten

/-- The length of a command's frame (R74). -/
def Instr.frameLength : Instr → Nat
  | .init => 1
  | .update payload => 5 + payload.length
  | .final => 1
  | .rdstatus => 1
  | .rddigest => 1

/-- The CMD byte of a command (R74). -/
def Instr.cmd : Instr → Byte
  | .init => cmdInit
  | .update _ => cmdUpdate
  | .final => cmdFinal
  | .rdstatus => cmdRdstatus
  | .rddigest => cmdRddigest

/-- R77: a frame's length from its head, the CMD byte and, for UPDATE, the LEN field. -/
def headLength : List Byte → Nat
  | cmd :: f1 :: f2 :: f3 :: f4 :: _ => if cmd = cmdUpdate then 5 + lenField f1 f2 f3 f4 else 1
  | _ => 1

/-- `bs` lengthened with zero bytes to at least `n` bytes. -/
def zeroPadTo (n : Nat) (bs : List Byte) : List Byte := bs ++ List.replicate (n - bs.length) 0

/-- The bytes of a word numbered as spec/opcode_table.json numbers it: bit 0 is the least significant bit of the
first byte, the second byte is bits 15..8. -/
def tableBytes (nbits w : Nat) : List Byte :=
  (List.range ((nbits + 7) / 8)).map fun k => BitVec.ofNat 8 (w / 2 ^ (8 * k))

/-- The whole frame a table word stands for: its own bytes, and zeros as far as the frame's head says it
goes.  DESIGN CHOICE (assumption 8), safe: by R78 a short word's bytes alone are an incomplete frame. -/
def tableFrame (nbits w : Nat) : List Byte :=
  zeroPadTo (headLength (zeroPadTo 5 (tableBytes nbits w))) (tableBytes nbits w)

/-- The command the decoder reads from a table word; `none` where it finds no command. -/
def decodeTableWord (nbits w : Nat) : Option Instr :=
  match decodeFrame (tableFrame nbits w) with
  | .command i _ => some i
  | .illegal _ _ => none
  | .incomplete => none

end Sys2Proof
end

