-- ==== Sys2Proof/Config.lean ====
section
/-! DEFINITION. What is fixed for the engine and is no state (spec/00_scope.md R5, spec/10_state.md R39), and the
model's one free value.  The engine has no configuration options (R39).  The round tables stand in
Machine/Compress.lean. -/

namespace Sys2Proof.Config

/-- The bytes of one block, which is also the size of BUF (R5). -/
abbrev blockBytes : Nat := 64

/-- The largest payload of one UPDATE command, 2^32 - 1 bytes (R5, R73). -/
abbrev maxPayload : Nat := 2 ^ 32 - 1

/-- The OPEN parameter NUM_ENGINES, the number of engines in a system: at least 1 (R5; spec/92_eei_decisions.md D22,
spec/93_implementation_defined.md I17).  The model fixes no value of it. -/
abbrev NumEngines := { n : Nat // 1 ≤ n }

/-- FREE VALUE (assumption 4).  INIT makes DIGEST `⊥` (spec/40_session.md R102): the spec says the register holds
no value, so nothing is known of what this is.  It is applied to `State.freeCtr`, so each INIT takes a fresh one. -/
opaque freeDigest : Nat → Digest

end Sys2Proof.Config
end

