-- ==== Sys2Proof/Machine/State.lean ====
section
/-! DEFINITION. The engine's state (spec/10_state.md R20), the command port as the model holds it, the reasons a step
can stop, and the state after reset (spec/70_reset_and_hazards.md R230). -/

namespace Sys2Proof.Machine

/-- LC, the lifecycle register (R22); its two-bit code is `Lifecycle.code` in Flags.lean. -/
inductive Lifecycle where
  | idle
  | fresh
  | accumulating
  | finalized
deriving DecidableEq, Repr

/-- The usage errors (spec/60_exceptions.md R201); their three-bit codes are `UsageError.code` in Flags.lean. -/
inductive UsageError where
  | illegalCommand
  | noSession
  | updateAfterFinal
  | finalAfterFinal
  | digestNotValid
deriving DecidableEq, Repr

/-- The accumulator, the four words A, B, C, D (R24). -/
structure Accum where
  a : Word
  b : Word
  c : Word
  d : Word
deriving DecidableEq, Repr

/-- The response of a command (spec/30_encoding.md R80). -/
inductive Response where
  /-- `OK`: a performed INIT or UPDATE. -/
  | ok
  /-- `OK(st)`: a performed RDSTATUS. -/
  | okStatus (st : Byte)
  /-- `OK(dg)`: a performed FINAL or RDDIGEST. -/
  | okDigest (dg : Digest)
  /-- `ERR(code)`: every rejected command. -/
  | err (code : BitVec 3)
deriving DecidableEq, Repr

/-- The bytes of BUF that hold a value, as (offset, byte) pairs, offsets strictly rising (`Memory.wf` in Ops.lean).
An offset that is not listed holds `⊥`, no value (R9, R29). -/
abbrev Memory := List Host.Cell

/-- The state.  `lc` to `ecode` are the spec's (R20); `stream`, `resets` and `responses` are the host's side of the
command port (R70, R80, R230); `freeCtr` is the model's own. -/
structure State where
  /-- LC (R22). -/
  lc : Lifecycle
  /-- A, B, C, D (R24). -/
  acc : Accum
  /-- BUF, 64 bytes at offsets 0..63 (R27). -/
  buf : Memory
  /-- COUNT, bytes processed in this session modulo 2^64 (R28). -/
  count : Count
  /-- DIGEST (R34). -/
  digest : Digest
  /-- ERR, the sticky usage-error flag (R32). -/
  err : Bool
  /-- ECODE, the code of the first usage error since reset (R33). -/
  ecode : BitVec 3
  /-- The command bytes the host has sent and the engine has not consumed, up to the next reset event (R70). -/
  stream : List Byte
  /-- The reset events that follow `stream`, in order: each entry is one event together with the command bytes the
  host sends after it and before the next (R230). -/
  resets : List (List Byte)
  /-- Every response returned so far, oldest first (R80, R241). -/
  responses : List Response
  /-- The model's own: how many free values have been taken (assumption 4). -/
  freeCtr : Nat
deriving DecidableEq, Repr

/-- Why a step stops.  The spec's own usage errors are no stop: a rejected command is a performed step (R203, R205). -/
inductive Fault where
  /-- Raised by `step` (Ops.waitForBytes): the stream ends inside an UPDATE frame and no reset event follows.  "The
  engine waits ... no step" (R78, R238); the state is unchanged.  Safe. -/
  | incompleteFrame
  /-- Raised by `step` (Ops.waitForBytes): no byte is left and no reset event follows.  The run has ended (R241) or,
  right after reset, the engine waits for the first frame (R231).  Safe. -/
  | noFrame
  /-- Raised by UPDATE and FINAL when they would read a BUF offset that holds `⊥`.  "Reading it is a modelling fault;
  no rule of this spec reads it" (R9; 93_implementation_defined.md I12).  No state that meets `Safety.Inv` raises it.  Safe. -/
  | noValueRead
deriving DecidableEq, Repr

/-- Why a command has no meaning.  Every command of the opcode table has one, so no step answers a refusal. -/
inductive Refusal where
  /-- A row of the opcode table whose meaning is not written (safe).  Raised by no arm of exec. -/
  | notModelled (mnemonic : String)
deriving DecidableEq, Repr

/-- What one step of this machine answers. -/
abbrev StepResult := Host.Outcome State Fault Refusal

/-- The engine right after reset, with no byte sent yet (R230).  LC, ERR and ECODE are the spec's; BUF holds no value
at any offset.  A to D, COUNT and DIGEST hold `⊥` in the spec: zero here is a DESIGN CHOICE (assumption 1, unsafe). -/
def State.reset : State where
  lc := .idle
  acc := ⟨0, 0, 0, 0⟩
  buf := []
  count := 0
  digest := Vector.replicate 16 0
  err := false
  ecode := 0
  stream := []
  resets := []
  responses := []
  freeCtr := 0

end Sys2Proof.Machine
end

