-- ==== Sys2Proof/Machine/Compress.lean ====
section
/-! DEFINITION. COMPRESS, the 64-round transform of one block (spec/41_compression.md R140 to R157), and the digest
serializer (spec/42_byte_order.md R183). -/

namespace Sys2Proof.Machine

/-- R7, R148: left rotation within 32 bits, for `1 ≤ n ≤ 31`. -/
def rotl32 (x : Word) (n : Nat) : Word := x <<< n ||| x >>> (32 - n)

/-- R144, pass 1. -/
def mixF1 (b c d : Word) : Word := (b &&& c) ||| (~~~b &&& d)

/-- R145, pass 2. -/
def mixF2 (b c d : Word) : Word := (b &&& d) ||| (c &&& ~~~d)

/-- R146, pass 3. -/
def mixF3 (b c d : Word) : Word := b ^^^ c ^^^ d

/-- R147, pass 4. -/
def mixF4 (b c d : Word) : Word := c ^^^ (b ||| ~~~d)

/-- R143: the mixing function of round `r`, by its pass `floor(r / 16) + 1`. -/
def mixOf (r : Fin 64) (b c d : Word) : Word :=
  match r.val / 16 with
  | 0 => mixF1 b c d
  | 1 => mixF2 b c d
  | 2 => mixF3 b c d
  | _ => mixF4 b c d

/-- The K column of the R157 table, one pass at a time; the literals are normative (R149, D27). -/
def kPass1 : Vector Word 16 :=
  #v[0xD76AA478, 0xE8C7B756, 0x242070DB, 0xC1BDCEEE, 0xF57C0FAF, 0x4787C62A, 0xA8304613, 0xFD469501,
     0x698098D8, 0x8B44F7AF, 0xFFFF5BB1, 0x895CD7BE, 0x6B901122, 0xFD987193, 0xA679438E, 0x49B40821]
def kPass2 : Vector Word 16 :=
  #v[0xF61E2562, 0xC040B340, 0x265E5A51, 0xE9B6C7AA, 0xD62F105D, 0x02441453, 0xD8A1E681, 0xE7D3FBC8,
     0x21E1CDE6, 0xC33707D6, 0xF4D50D87, 0x455A14ED, 0xA9E3E905, 0xFCEFA3F8, 0x676F02D9, 0x8D2A4C8A]
def kPass3 : Vector Word 16 :=
  #v[0xFFFA3942, 0x8771F681, 0x6D9D6122, 0xFDE5380C, 0xA4BEEA44, 0x4BDECFA9, 0xF6BB4B60, 0xBEBFBC70,
     0x289B7EC6, 0xEAA127FA, 0xD4EF3085, 0x04881D05, 0xD9D4D039, 0xE6DB99E5, 0x1FA27CF8, 0xC4AC5665]
def kPass4 : Vector Word 16 :=
  #v[0xF4292244, 0x432AFF97, 0xAB9423A7, 0xFC93A039, 0x655B59C3, 0x8F0CCC92, 0xFFEFF47D, 0x85845DD1,
     0x6FA87E4F, 0xFE2CE6E0, 0xA3014314, 0x4E0811A1, 0xF7537E82, 0xBD3AF235, 0x2AD7D2BB, 0xEB86D391]

/-- R149, R157: the 64 additive constants. -/
def tableK : Vector Word 64 := kPass1 ++ kPass2 ++ kPass3 ++ kPass4

/-- R150: the rotation amount of round `r`, by its pass and `r mod 4`. -/
def shiftOf (r : Fin 64) : Nat :=
  match r.val / 16 with
  | 0 => #v[7, 12, 17, 22][r.val % 4]
  | 1 => #v[5, 9, 14, 20][r.val % 4]
  | 2 => #v[4, 11, 16, 23][r.val % 4]
  | _ => #v[6, 10, 15, 21][r.val % 4]

/-- R151: the index of the message word round `r` consumes, by the closed forms in `i = r mod 16`. -/
def permOf (r : Fin 64) : Fin 16 :=
  match r.val / 16 with
  | 0 => Fin.ofNat 16 (r.val % 16)
  | 1 => Fin.ofNat 16 (5 * (r.val % 16) + 1)
  | 2 => Fin.ofNat 16 (3 * (r.val % 16) + 5)
  | _ => Fin.ofNat 16 (7 * (r.val % 16))

/-- R141 `WORDS`: the sixteen little-endian message words of a block. -/
def wordsOf (blk : Block) : Vector Word 16 :=
  Vector.ofFn fun i => le32 blk[4 * i.val] blk[4 * i.val + 1] blk[4 * i.val + 2] blk[4 * i.val + 3]

/-- R152 `ROUND`: the working registers after round `r`. -/
def roundOf (m : Vector Word 16) (w : Accum) (r : Fin 64) : Accum :=
  let f := mixOf r w.b w.c w.d
  let temp := w.a + f + tableK[r] + m[permOf r]
  let nb := w.b + rotl32 temp (shiftOf r)
  ⟨w.d, nb, w.b, w.c⟩

/-- R142, R153: the 64 rounds in increasing order, from working registers that copy the accumulator. -/
def workingRegisters (acc : Accum) (blk : Block) : Accum :=
  (List.finRange 64).foldl (roundOf (wordsOf blk)) acc

/-- R140 `COMPRESS`, with the feed-forward of R154. -/
def compress (acc : Accum) (blk : Block) : Accum :=
  let w := workingRegisters acc blk
  ⟨acc.a + w.a, acc.b + w.b, acc.c + w.c, acc.d + w.d⟩

/-- R26: the initial accumulator. -/
def initialAcc : Accum := ⟨0x67452301, 0xEFCDAB89, 0x98BADCFE, 0x10325476⟩

/-- R183: the digest serializer. -/
def serializeDigest (acc : Accum) : Digest :=
  le32bytes acc.a ++ le32bytes acc.b ++ le32bytes acc.c ++ le32bytes acc.d

end Sys2Proof.Machine
end

