-- ==== Sys2Proof/Machine/Flags.lean ====
section
/-! DEFINITION. The status and error codes and the STATUS view (spec/10_state.md R22, R29, R31; spec/60_exceptions.md
R201).  The engine has no arithmetic flags (R35). -/

namespace Sys2Proof.Machine

/-- R22: the code of LC in STATUS.STATE. -/
def Lifecycle.code : Lifecycle → BitVec 2
  | .idle => 0
  | .fresh => 1
  | .accumulating => 2
  | .finalized => 3

/-- R201: the code of a usage error.  Code 0 is NONE, 6 and 7 are reserved and never raised. -/
def UsageError.code : UsageError → BitVec 3
  | .illegalCommand => 1
  | .noSession => 2
  | .updateAfterFinal => 3
  | .finalAfterFinal => 4
  | .digestNotValid => 5

/-- R31: `STATUS = zext_8(ECODE << 3 | ERR << 2 | STATE)`, a view with no storage of its own. -/
def State.status (s : State) : Byte :=
  s.ecode.setWidth 8 <<< 3 ||| (BitVec.ofBool s.err).setWidth 8 <<< 2 ||| s.lc.code.setWidth 8

/-- R29: `fill = COUNT mod 64 = COUNT[5:0]`, derived and not a register. -/
def State.fill (s : State) : BitVec 6 := s.count.extractLsb' 0 6

end Sys2Proof.Machine
end

