-- ==== Sys2Proof/Machine/Padding.lean ====
section
/-! DEFINITION. PAD, the padding of the last block or blocks (spec/40_session.md R108 to R111). -/

namespace Sys2Proof.Machine

/-- R8 `0x00^k`: `k` zero bytes. -/
def zeroBytes (k : Nat) : Vector Byte k := Vector.replicate k 0

/-- R110: the message length in bits, modulo 2^64. -/
def bitLength (count : Count) : Count := count * 8

/-- R108 `PAD(tail, n)`: one block while the 0x80 byte and the length fit behind the tail, two otherwise.  `n` is the
fill, so it is below 64. -/
def pad {n : Nat} (tail : Vector Byte n) (hn : n < 64) (count : Count) : List Block :=
  if h : n + 1 ≤ 56 then
    [(tail.push 0x80 ++ zeroBytes (56 - (n + 1)) ++ le64bytes (bitLength count)).cast (by omega)]
  else
    [(tail.push 0x80 ++ zeroBytes (64 - (n + 1))).cast (by omega),
     (zeroBytes 56 ++ le64bytes (bitLength count)).cast (by omega)]

end Sys2Proof.Machine
end

