-- ==== Sys2Proof/Machine/Ops.lean ====
section
/-! DEFINITION. The shared operations: BUF (spec/20_memory.md R50, R52, R53), the legality table and the rejection of a
command (spec/40_session.md R100, R101; spec/60_exceptions.md R203), ABSORB (R104), the reset event
(spec/70_reset_and_hazards.md R230) and waiting for bytes (R78, R238).  The engine has no trap mechanism and no return
from an exception (R205): the rejection is the whole of its exception entry, and the next frame follows. -/

namespace Sys2Proof.Machine

/-- The canonical form of BUF: offsets strictly rising, all below 64.  An unlisted offset reads as `⊥`, which is no
byte, so no entry can equal it. -/
abbrev Memory.wf (m : Memory) : Prop :=
  m.Pairwise (fun x y => x.1 < y.1) ∧ ∀ c ∈ m, c.1 < Config.blockBytes

/-- What BUF holds at an offset; `none` is `⊥` (R9, R29). -/
def Memory.readByte : Memory → Nat → Option Byte
  | [], _ => none
  | (k, b) :: m, a => if k = a then some b else Memory.readByte m a

/-- Insert or replace one cell, keeping the offsets rising. -/
def Memory.writeCell : Memory → Nat → Byte → Memory
  | [], a, v => [(a, v)]
  | (k, b) :: m, a, v =>
    if a < k then (a, v) :: (k, b) :: m
    else if a = k then (a, v) :: m
    else (k, b) :: Memory.writeCell m a v

/-- R9 `MemWrite(addr, 1, v)`: BUF has offsets 0..63 only, so an offset is 6 bits (R50). -/
def Memory.writeByte (m : Memory) (a : BitVec 6) (v : Byte) : Memory := Memory.writeCell m a.toNat v

/-- The bytes at offsets `0..n-1`; `none` if one of them holds `⊥`. -/
def Memory.readPrefix (m : Memory) : (n : Nat) → Option (Vector Byte n)
  | 0 => some #v[]
  | n + 1 =>
    match Memory.readPrefix m n, m.readByte n with
    | some bs, some b => some (bs.push b)
    | _, _ => none

/-- R112, R102: `BUF[0..63] <- ⊥`. -/
def Memory.noValues : Memory := []

/-- The response of a command is returned to the host (R80, R81). -/
def State.respond (r : Response) (s : State) : State := { s with responses := s.responses ++ [r] }

/-- LC takes a new value (R23). -/
def State.setLc (lc : Lifecycle) (s : State) : State := { s with lc := lc }

/-- The engine has consumed the head of the stream; `rest` is what is left (R70). -/
def State.advance (rest : List Byte) (s : State) : State := { s with stream := rest }

/-- R203 `raise UsageError(code)`, the rejection of a command: the first error since reset keeps ECODE, ERR is set, and
nothing else changes. -/
def raiseUsageError (e : UsageError) (s : State) : State :=
  State.respond (.err e.code)
    { s with ecode := if s.err then s.ecode else e.code, err := true }

/-- R101 `LEGALITY[cmd][LC]`: `none` is PERFORM, anything else is the error the command raises. -/
def legality : Instr → Lifecycle → Option UsageError
  | .init, _ => none
  | .update _, .idle => some .noSession
  | .update _, .fresh => none
  | .update _, .accumulating => none
  | .update _, .finalized => some .updateAfterFinal
  | .final, .idle => some .noSession
  | .final, .fresh => none
  | .final, .accumulating => none
  | .final, .finalized => some .finalAfterFinal
  | .rdstatus, _ => none
  | .rddigest, .idle => some .digestNotValid
  | .rddigest, .fresh => some .digestNotValid
  | .rddigest, .accumulating => some .digestNotValid
  | .rddigest, .finalized => none

/-- R100: the lifecycle check, then the command's own rule. -/
def perform (i : Instr) (s : State) (rule : State → StepResult) : StepResult :=
  match legality i s.lc with
  | some e => .next (raiseUsageError e s)
  | none => rule s

/-- R102's effect on the session: the initial accumulator, COUNT zero, BUF and DIGEST `⊥` (DIGEST's is a free value,
assumption 4). -/
def beginSession (s : State) : State :=
  { s with
    lc := .fresh
    acc := initialAcc
    count := 0
    buf := Memory.noValues
    digest := Config.freeDigest s.freeCtr
    freeCtr := s.freeCtr + 1 }

/-- R104 `ABSORB(v)`.  When the 64th byte of a block arrives the block is compressed, and BUF then holds no valid byte:
offsets `fill..63` hold `⊥` (R29).  `none` if the block has a byte that holds `⊥`. -/
def absorb (v : Byte) (s : State) : Option State :=
  let buf := s.buf.writeByte s.fill v
  let count := s.count + 1
  if count.extractLsb' 0 6 = 0 then
    match buf.readPrefix 64 with
    | some blk => some { s with buf := Memory.noValues, count := count, acc := compress s.acc blk }
    | none => none
  else some { s with buf := buf, count := count }

/-- R103's loop: the payload bytes in increasing order. -/
def absorbAll : List Byte → State → Option State
  | [], s => some s
  | v :: vs, s =>
    match absorb v s with
    | some t => absorbAll vs t
    | none => none

/-- R107's effect on the session, from the `fill` valid bytes of BUF. -/
def finishSession {n : Nat} (tail : Vector Byte n) (hn : n < 64) (s : State) : State :=
  let acc := (pad tail hn s.count).foldl compress s.acc
  { s with
    acc := acc
    digest := serializeDigest acc
    buf := Memory.noValues
    lc := .finalized }

/-- R75: an illegal CMD byte is rejected in every LC state; the byte itself is not recorded (R201). -/
def execIllegal (s : State) : StepResult := .next (raiseUsageError .illegalCommand s)

/-- The reset event of R230.  An incomplete frame is discarded; `seg` is what the host sends next.  The responses
already returned stay returned.  A to D, COUNT and DIGEST hold `⊥`: assumption 1. -/
def resetEvent (seg : List Byte) (later : List (List Byte)) (s : State) : State :=
  { State.reset with
    stream := seg
    resets := later
    responses := s.responses
    freeCtr := s.freeCtr }

/-- No complete frame is left.  A reset event lands here, between commands (R230); without one the engine waits and
has no step (R78, R238, R241). -/
def waitForBytes (s : State) : StepResult :=
  match s.resets with
  | seg :: later => .next (resetEvent seg later s)
  | [] => if s.stream.isEmpty then .fault .noFrame else .fault .incompleteFrame

end Sys2Proof.Machine
end

