-- ==== Sys2Proof/Machine/Readback.lean ====
section
/-! DEFINITION. The readback commands RDSTATUS and RDDIGEST (spec/40_session.md R113, R114). -/

namespace Sys2Proof.Machine

/-- RDSTATUS (R113): performed in every state, with no side effect. -/
def execRdstatus (s : State) : StepResult :=
  perform .rdstatus s fun s => .next (s.respond (.okStatus s.status))

/-- RDDIGEST (R114): performed in Finalized only. -/
def execRddigest (s : State) : StepResult :=
  perform .rddigest s fun s => .next (s.respond (.okDigest s.digest))

end Sys2Proof.Machine
end

