-- ==== Sys2Proof/Machine/Session.lean ====
section
/-! DEFINITION. The session commands INIT, UPDATE and FINAL (spec/40_session.md R102, R103, R107). -/

namespace Sys2Proof.Machine

/-- INIT (R102): performed in every state. -/
def execInit (s : State) : StepResult :=
  perform .init s fun s => .next ((beginSession s).respond .ok)

/-- UPDATE (R103, R104, R105). -/
def execUpdate (payload : List Byte) (s : State) : StepResult :=
  perform (.update payload) s fun s =>
    match absorbAll payload s with
    | some t => .next ((t.setLc .accumulating).respond .ok)
    | none => .fault .noValueRead

/-- FINAL (R107, R108, R112). -/
def execFinal (s : State) : StepResult :=
  perform .final s fun s =>
    match s.buf.readPrefix s.fill.toNat with
    | some tail =>
      let t := finishSession tail s.fill.isLt s
      .next (t.respond (.okDigest t.digest))
    | none => .fault .noValueRead

end Sys2Proof.Machine
end

