-- ==== Sys2Proof/Machine/Dispatch.lean ====
section
/-! DEFINITION. One arm per command of the opcode table (spec/30_encoding.md R74, spec/40_session.md R100). -/

namespace Sys2Proof.Machine

def exec (i : Instr) (s : State) : Host.Outcome State Fault Refusal :=
  match i with
  | .init => Sys2Proof.Machine.execInit s
  | .update payload => Sys2Proof.Machine.execUpdate payload s
  | .final => Sys2Proof.Machine.execFinal s
  | .rdstatus => Sys2Proof.Machine.execRdstatus s
  | .rddigest => Sys2Proof.Machine.execRddigest s

end Sys2Proof.Machine
end

