-- ==== Sys2Proof/Machine/Step.lean ====
section
/-! DEFINITION. One step: the engine takes the frame at the head of its command stream and performs or rejects it
(spec/30_encoding.md R70, spec/40_session.md R100), or a reset event lands, or it has no step (R78). -/

namespace Sys2Proof.Machine

/-- One step.  The frame is consumed, then the command runs; a command cannot see the stream. -/
def step (s : State) : Host.Outcome State Fault Refusal :=
  match decodeFrame s.stream with
  | .command i rest => exec i (s.advance rest)
  | .illegal _ rest => execIllegal (s.advance rest)
  | .incomplete => waitForBytes s

/-- `s` with the frame of a table word placed in front of the command stream, where `step` takes its next frame
(assumption 8: a program reaches this machine only as command bytes the host sends). -/
def State.withFetchWord (s : State) (nbits w : Nat) : State :=
  s.advance (tableFrame nbits w ++ s.stream)

end Sys2Proof.Machine
end

