-- ==== Sys2Proof/WellFormed.lean ====
section
/-! DEFINITION. Which commands have an encoding (spec/30_encoding.md R73, R82). -/

namespace Sys2Proof

/-- A command is well formed if its operands fit their fields.  Only UPDATE has operands: its payload is at most
2^32 - 1 bytes (R73); a longer one "is an assembly error" (R82). -/
def Instr.wellFormed : Instr → Bool
  | .init => true
  | .update payload => decide (payload.length ≤ Config.maxPayload)
  | .final => true
  | .rdstatus => true
  | .rddigest => true

end Sys2Proof
end

