-- ==== Sys2Proof/Machine/Assembler.lean ====
section
/-! DEFINITION. The host-side text forms: the assembly syntax, the HASH pseudo-instruction and the disassembler
(spec/30_encoding.md R82 to R84), and the hexadecimal display of a digest (spec/42_byte_order.md R186).  Text is a list
of characters.  Nothing here is read by `step`. -/

namespace Sys2Proof.Machine

/-- One line of an assembly program (R82, R83). -/
inductive AsmLine where
  | init
  | update (payload : List Byte)
  | final
  | rdstatus
  | rddigest
  /-- `.byte 0xNN`: one raw byte, used only to write illegal CMD bytes (R82); what the model does with a legal one is its
  own choice (assumption 9). -/
  | byte (b : Byte)
  /-- `HASH payload`, the one pseudo-instruction (R83). -/
  | hash (payload : List Byte)
deriving DecidableEq, Repr

/-- The line of a command (R84). -/
def AsmLine.ofInstr : Instr → AsmLine
  | .init => .init
  | .update payload => .update payload
  | .final => .final
  | .rdstatus => .rdstatus
  | .rddigest => .rddigest

/-- R83: HASH expands to INIT, UPDATE, FINAL; every other line stands for itself. -/
def AsmLine.expand : AsmLine → List AsmLine
  | .hash payload => [.init, .update payload, .final]
  | l => [l]

/-- The frame of an UPDATE line; `none` is the assembly error of a payload over 2^32 - 1 bytes (R82). -/
def assembleUpdate (payload : List Byte) : Option (List Byte) :=
  if (Instr.update payload).wellFormed then some (encode (.update payload)) else none

/-- The bytes a line emits, one frame for each line it expands to (R82, R83).  DESIGN CHOICE (assumption 9), unsafe for
claims about text: `.byte` emits any byte; R82 says that it is used only to write illegal CMD bytes, and does not say what
an assembler does with `.byte` of a legal one. -/
def assembleLine : AsmLine → Option (List Byte)
  | .init => some (encode .init)
  | .update payload => assembleUpdate payload
  | .final => some (encode .final)
  | .rdstatus => some (encode .rdstatus)
  | .rddigest => some (encode .rddigest)
  | .byte b => some [b]
  | .hash payload => (assembleUpdate payload).map fun u => encode .init ++ u ++ encode .final

/-- The command stream of a program. -/
def assembleProgram : List AsmLine → Option (List Byte)
  | [] => some []
  | l :: ls =>
    match assembleLine l, assembleProgram ls with
    | some bs, some rest => some (bs ++ rest)
    | _, _ => none

/-- R84: the line a frame is printed as; an incomplete frame has none. -/
def disassemble : Frame → Option AsmLine
  | .command i _ => some (AsmLine.ofInstr i)
  | .illegal b _ => some (.byte b)
  | .incomplete => none

/-- A hexadecimal digit, lowercase.  R186 says so of the digest display; that the disassembler's digits are lowercase too
is the model's choice (assumption 9). -/
def hexDigit (n : Nat) : Char :=
  if n < 10 then Char.ofNat (48 + n) else Char.ofNat (87 + n)

/-- Two digits, most significant nibble first (R186). -/
def hexByte (b : Byte) : List Char := [hexDigit (b.toNat / 16), hexDigit (b.toNat % 16)]

/-- R186: 32 lowercase hexadecimal characters, byte 0 first. -/
def hexDisplay (dg : Digest) : List Char := (dg.toList.map hexByte).flatten

/-- The mnemonics of R82 and R83, in the letter case in which R82 writes them; that the disassembler prints that case is
the model's choice (assumption 9), since R82 reads either. -/
def textInit : List Char := ['I', 'N', 'I', 'T']
def textUpdate : List Char := ['U', 'P', 'D', 'A', 'T', 'E']
def textFinal : List Char := ['F', 'I', 'N', 'A', 'L']
def textRdstatus : List Char := ['R', 'D', 'S', 'T', 'A', 'T', 'U', 'S']
def textRddigest : List Char := ['R', 'D', 'D', 'I', 'G', 'E', 'S', 'T']
def textByte : List Char := ['.', 'b', 'y', 't', 'e']
def textHash : List Char := ['H', 'A', 'S', 'H']

/-- A byte as `0xNN` (R82, R84), after a space.  DESIGN CHOICE (assumption 9), unsafe for claims about text: the digits are lowercase and one
space stands before each byte; R82 and R84 fix neither. -/
def printByte (b : Byte) : List Char := [' ', '0', 'x'] ++ hexByte b

/-- A payload as a hexadecimal byte list (R84); the empty payload has no list and is printed as the empty string, the
only form R82 gives it (assumption 9). -/
def printPayload : List Byte → List Char
  | [] => [' ', '"', '"']
  | b :: bs => ((b :: bs).map printByte).flatten

/-- R84: a line as text. -/
def printLine : AsmLine → List Char
  | .init => textInit
  | .update payload => textUpdate ++ printPayload payload
  | .final => textFinal
  | .rdstatus => textRdstatus
  | .rddigest => textRddigest
  | .byte b => textByte ++ printByte b
  | .hash payload => textHash ++ printPayload payload

/-- A word of a line: a run of characters without white space, a string's bytes, or the repetition star. -/
inductive Token where
  | word (cs : List Char)
  | str (bs : List Byte)
  | star
deriving DecidableEq, Repr

/-- Where the reader of a line stands.  Words and strings under way are held in reverse. -/
inductive LexMode where
  | gap
  | word (rev : List Char)
  | str (rev : List Byte)
  | strEscape (rev : List Byte)
  | strHex (rev : List Byte)
  | strHexLow (rev : List Byte) (high : Nat)
  | comment
  | bad
deriving DecidableEq, Repr

/-- The reader of a line: the tokens so far, in reverse, and where it stands. -/
structure Lexer where
  tokens : List Token
  mode : LexMode
deriving DecidableEq, Repr

/-- The value of a hexadecimal digit, either case. -/
def hexValue (c : Char) : Option Nat :=
  if 48 ≤ c.toNat ∧ c.toNat ≤ 57 then some (c.toNat - 48)
  else if 97 ≤ c.toNat ∧ c.toNat ≤ 102 then some (c.toNat - 87)
  else if 65 ≤ c.toNat ∧ c.toNat ≤ 70 then some (c.toNat - 55)
  else none

/-- White space between the words of a line. -/
def isBlank (c : Char) : Bool := c = ' ' || c = '\t' || c = '\r'

/-- A character that starts something new, or continues nothing. -/
def lexGap (tokens : List Token) (c : Char) : Lexer :=
  if isBlank c then ⟨tokens, .gap⟩
  else if c = ';' then ⟨tokens, .comment⟩
  else if c = '"' then ⟨tokens, .str []⟩
  else if c = '*' then ⟨.star :: tokens, .gap⟩
  else ⟨tokens, .word [c]⟩

/-- One character of a line.  Inside a string `\xNN` is one byte, `\\` and `\"` stand for themselves, and every other
character is its ASCII byte (R82). -/
def lexChar (l : Lexer) (c : Char) : Lexer :=
  match l.mode with
  | .gap => lexGap l.tokens c
  | .word rev =>
    if isBlank c || c = ';' || c = '"' || c = '*' then lexGap (.word rev.reverse :: l.tokens) c
    else ⟨l.tokens, .word (c :: rev)⟩
  | .str rev =>
    if c = '"' then ⟨.str rev.reverse :: l.tokens, .gap⟩
    else if c = '\\' then ⟨l.tokens, .strEscape rev⟩
    else if c.toNat < 128 then ⟨l.tokens, .str (BitVec.ofNat 8 c.toNat :: rev)⟩
    else ⟨l.tokens, .bad⟩
  | .strEscape rev =>
    if c = 'x' then ⟨l.tokens, .strHex rev⟩
    else if c = '\\' || c = '"' then ⟨l.tokens, .str (BitVec.ofNat 8 c.toNat :: rev)⟩
    else ⟨l.tokens, .bad⟩
  | .strHex rev =>
    match hexValue c with
    | some h => ⟨l.tokens, .strHexLow rev h⟩
    | none => ⟨l.tokens, .bad⟩
  | .strHexLow rev h =>
    match hexValue c with
    | some n => ⟨l.tokens, .str (BitVec.ofNat 8 (16 * h + n) :: rev)⟩
    | none => ⟨l.tokens, .bad⟩
  | .comment => l
  | .bad => l

/-- The tokens of a line; `none` if a string is left open or holds what R82 gives no meaning. -/
def tokenize (text : List Char) : Option (List Token) :=
  let l := text.foldl lexChar ⟨[], .gap⟩
  match l.mode with
  | .gap => some l.tokens.reverse
  | .comment => some l.tokens.reverse
  | .word rev => some (Token.word rev.reverse :: l.tokens).reverse
  | .str _ => none
  | .strEscape _ => none
  | .strHex _ => none
  | .strHexLow _ _ => none
  | .bad => none

/-- `0xNN` as a byte. -/
def parseHexByte : List Char → Option Byte
  | ['0', 'x', h, l] =>
    match hexValue h, hexValue l with
    | some h, some l => some (BitVec.ofNat 8 (16 * h + l))
    | _, _ => none
  | _ => none

/-- A list of `0xNN` words. -/
def parseByteWords : List Token → Option (List Byte)
  | [] => some []
  | .word w :: ts =>
    match parseHexByte w, parseByteWords ts with
    | some b, some bs => some (b :: bs)
    | _, _ => none
  | .str _ :: _ => none
  | .star :: _ => none

/-- A decimal number; `none` for a word that is none. -/
def parseDecimal (w : List Char) : Option Nat :=
  if w ≠ [] ∧ w.all (fun c => decide (48 ≤ c.toNat) && decide (c.toNat ≤ 57)) then
    some (w.foldl (fun n c => 10 * n + (c.toNat - 48)) 0)
  else none

/-- A payload: a string, a string repeated, or a list of bytes (R82). -/
def parsePayload : List Token → Option (List Byte)
  | [.str bs] => some bs
  | [.str bs, .star, .word w] => (parseDecimal w).map fun n => (List.replicate n bs).flatten
  | .word w :: ts => parseByteWords (.word w :: ts)
  | _ => none

/-- An uppercase letter of a mnemonic: mnemonics are case-insensitive (R82). -/
def upperChar (c : Char) : Char := if 97 ≤ c.toNat ∧ c.toNat ≤ 122 then Char.ofNat (c.toNat - 32) else c

/-- Whether a word is a mnemonic, in either case. -/
def isMnemonic (text w : List Char) : Bool := w.map upperChar = text.map upperChar

/-- The line a list of tokens stands for. -/
def parseTokens : List Token → Option AsmLine
  | .word m :: ts =>
    if isMnemonic textInit m then (if ts = [] then some .init else none)
    else if isMnemonic textUpdate m then (parsePayload ts).map .update
    else if isMnemonic textFinal m then (if ts = [] then some .final else none)
    else if isMnemonic textRdstatus m then (if ts = [] then some .rdstatus else none)
    else if isMnemonic textRddigest m then (if ts = [] then some .rddigest else none)
    else if isMnemonic textHash m then (parsePayload ts).map .hash
    else if isMnemonic textByte m then
      match ts with
      | [.word w] => (parseHexByte w).map .byte
      | _ => none
    else none
  | _ => none

/-- Read one line of assembly text.  `some none` is a line with no command, blank or a comment only; `none` is text that
R82 gives no meaning. -/
def parseLine (text : List Char) : Option (Option AsmLine) :=
  match tokenize text with
  | some [] => some none
  | some ts => (parseTokens ts).map some
  | none => none

end Sys2Proof.Machine
end

