-- ==== Sys2Proof/Machine/System.lean ====
section
/-! DEFINITION. A system of `n` engines (spec/60_exceptions.md R213, spec/20_memory.md R64).  `n` is the spec's OPEN
parameter NUM_ENGINES, at least 1 (spec/00_scope.md R5), a parameter of a run (spec/10_state.md R39). -/

namespace Sys2Proof.Machine

open Sys2Proof.Config

/-- Each engine has its own complete state (R64). -/
abbrev System (n : NumEngines) := Vector State n.val

/-- Each engine leaves reset in its own reset state (R213). -/
def systemReset (n : NumEngines) : System n := Vector.replicate n.val State.reset

/-- One step of engine `i`; the platform says which engine moves.  An engine that has no step stops this step only: the
platform may move another (assumption 10). -/
def systemStep {n : NumEngines} (i : Fin n.val) (sys : System n) : Host.Outcome (System n) Fault Refusal :=
  match step sys[i] with
  | .next t => .next (sys.set i t)
  | .fault r => .fault r
  | .refused r => .refused r

end Sys2Proof.Machine
end

