-- ==== Sys2Proof/Machine/HostPort.lean ====
section
/-! DEFINITION. What the host and the platform do to the engine from outside a step (spec/70_reset_and_hazards.md R230,
R242), and what the host observes (R241). -/

namespace Sys2Proof.Machine

/-- Append bytes to the last of the segments. -/
def appendLast : List (List Byte) → List Byte → List (List Byte)
  | [], _ => []
  | [seg], bs => [seg ++ bs]
  | seg :: seg' :: segs, bs => seg :: appendLast (seg' :: segs) bs

/-- The host sends command bytes: they arrive behind everything it has sent before (R70). -/
def State.hostSend (bs : List Byte) (s : State) : State :=
  match s.resets with
  | [] => { s with stream := s.stream ++ bs }
  | seg :: later => { s with resets := appendLast (seg :: later) bs }

/-- The platform asserts reset behind everything sent so far (R230); the first byte sent after it starts a new frame. -/
def State.hostReset (s : State) : State := { s with resets := s.resets ++ [[]] }

/-- R241: what can be observed of a run: the responses, the final STATUS and, while it is valid, DIGEST (R34). -/
structure Observation where
  responses : List Response
  status : Byte
  digest : Option Digest
deriving DecidableEq, Repr

/-- The observation of a state.  DIGEST is read through RDDIGEST only, which is performed in Finalized only (R34). -/
def State.observe (s : State) : Observation where
  responses := s.responses
  status := s.status
  digest := if s.lc = .finalized then some s.digest else none

/-- Perform the commands of a sequence in order, stopping at the first stop (R59). -/
def execAll : List Instr → State → StepResult
  | [], s => .next s
  | i :: is, s =>
    match exec i s with
    | .next t => execAll is t
    | .fault r => .fault r
    | .refused r => .refused r

end Sys2Proof.Machine
end

