-- ==== Sys2Proof/Safety.lean ====
section
/-! DEFINITION. The terms claims use: the engine's invariant (spec/10_state.md R30), what a state defines (R29, R230), a
run without usage errors (spec/93_implementation_defined.md, part 1), and the digest of a whole message written without
the engine (spec/40_session.md R108, R116). -/

namespace Sys2Proof.Safety

open Sys2Proof.Machine

/-- R30: BUF holds valid bytes at exactly the offsets `0..fill-1`. -/
abbrev BufHoldsFill (s : State) : Prop := s.buf.map Prod.fst = List.range s.fill.toNat

/-- The valid buffered bytes, in offset order. -/
def bufferedBytes (s : State) : List Byte := s.buf.map Prod.snd

/-- A session is open: UPDATE and FINAL are performed (R101). -/
abbrev SessionOpen (s : State) : Prop := s.lc = .fresh ∨ s.lc = .accumulating

/-- What holds between commands (R20, R22, R30, R31, R33, R34). -/
structure Inv (s : State) : Prop where
  /-- BUF is in canonical form and has offsets 0..63 only (R27). -/
  buf_wf : Memory.wf s.buf
  /-- While a session is open the buffer holds exactly COUNT mod 64 valid bytes (R30). -/
  buf_holds : SessionOpen s → BufHoldsFill s
  /-- Outside an open session BUF is `⊥` at every offset (R30, R230). -/
  buf_empty : ¬ SessionOpen s → s.buf = []
  /-- In Fresh no byte has been absorbed (R22, R102). -/
  fresh_start : s.lc = .fresh → s.count = 0 ∧ s.acc = initialAcc
  /-- In Finalized DIGEST is the serialized accumulator (R34). -/
  digest_valid : s.lc = .finalized → s.digest = serializeDigest s.acc
  /-- ECODE is 0 exactly while ERR is 0 (R31). -/
  ecode_zero : s.err = false ↔ s.ecode = 0
  /-- ECODE never takes the values 6 or 7 (R33). -/
  ecode_legal : s.ecode.toNat ≤ 5

/-- A run has met no usage error since reset (93_implementation_defined.md: "A claim about a run states ERR = 0"). -/
abbrev NoUsageError (s : State) : Prop := s.err = false

/-- The two states agree on everything that holds a value in the spec; what it calls `⊥` may differ (R20, R29, R230). -/
structure SameDefined (s t : State) : Prop where
  lc : s.lc = t.lc
  err : s.err = t.err
  ecode : s.ecode = t.ecode
  stream : s.stream = t.stream
  resets : s.resets = t.resets
  responses : s.responses = t.responses
  /-- The accumulator and COUNT hold a value from the first INIT on. -/
  acc : s.lc ≠ .idle → s.acc = t.acc
  count : s.lc ≠ .idle → s.count = t.count
  /-- BUF holds a value at the offsets below fill while a session is open. -/
  buf : SessionOpen s → ∀ a, a < s.fill.toNat → s.buf.readByte a = t.buf.readByte a
  /-- DIGEST holds a value in Finalized. -/
  digest : s.lc = .finalized → s.digest = t.digest

/-- The state a rejection with `code` leaves, written out from R203. -/
def rejectedWith (code : BitVec 3) (s : State) : State :=
  { s with
    err := true
    ecode := if s.err = true then s.ecode else code
    responses := s.responses ++ [Response.err code] }

/-- A list of 64 bytes as a block. -/
def blockOfList (bs : List Byte) : Block := Vector.ofFn fun i => bs.getD i.val 0

/-- COMPRESS over the first `k` blocks of a byte sequence, in message order (R30). -/
def foldBlocks : Nat → Accum → List Byte → Accum
  | 0, acc, _ => acc
  | k + 1, acc, bs => foldBlocks k (compress acc (blockOfList (bs.take 64))) (bs.drop 64)

/-- R111: how many zero bytes stand between the 0x80 byte and the length field of an `n`-byte message. -/
def padZeros (n : Nat) : Nat := (55 + 64 - n % 64) % 64

/-- A whole message with its padding: the 0x80 byte, zeros, and the length in bits (R108, R110). -/
def paddedMessage (m : List Byte) : List Byte :=
  m ++ [0x80] ++ List.replicate (padZeros m.length) 0 ++ (le64bytes (BitVec.ofNat 64 (8 * m.length))).toList

/-- R116: `hash(m)`, the digest of a whole message, written without the engine. -/
def hashOf (m : List Byte) : Digest :=
  serializeDigest (foldBlocks ((paddedMessage m).length / 64) initialAcc (paddedMessage m))

end Sys2Proof.Safety
end

