-- ==== Sys2Proof/Certificates/Slice0/Obligations.lean ====
section
/-! DEFINITION. The statements for the provers.  Each is about every state or every operand; each docstring names the
rule of spec/ it formalises, or says that it is derived. -/

open Sys2Proof
open Sys2Proof.Machine
open Sys2Proof.Safety

/-! ### Encoding and the command stream -/

/-- Words written out from R71 and R74 decode to the commands they stand for, and an illegal byte to none (R75).  The
second clause, that the word 0x02 is the UPDATE with LEN = 0, is the model's choice (assumption 8, DESIGN CHOICE: a table
word shorter than its frame is lengthened with zero bytes); by R78 the byte 0x02 alone is an incomplete frame. -/
def Obligations.TableWordsDecodeToTheirCommands : Prop :=
  decodeTableWord 8 0x01 = some .init ∧
  decodeTableWord 8 0x02 = some (.update []) ∧
  decodeTableWord 8 0x03 = some .final ∧
  decodeTableWord 8 0x04 = some .rdstatus ∧
  decodeTableWord 8 0x05 = some .rddigest ∧
  decodeTableWord 64 0x6362610000000302 = some (.update [0x61, 0x62, 0x63]) ∧
  decodeTableWord 8 0x00 = none ∧
  decodeTableWord 8 0xFF = none

/-- Decode and encode agree (from R71, R73, R74): the frame of a well-formed command, followed by anything, decodes to
that command and leaves what follows. -/
def Obligations.DecodingAnEncodedCommandGivesItBack : Prop :=
  ∀ (i : Instr) (rest : List Byte), i.wellFormed = true → decodeFrame (encode i ++ rest) = .command i rest

/-- The other direction (from R75, R79): what the decoder reads is what stands in the stream, so no byte sequence has
two readings. -/
def Obligations.DecodedFramesAreWhatTheStreamHolds : Prop :=
  (∀ (bs : List Byte) (i : Instr) (rest : List Byte), decodeFrame bs = .command i rest →
    i.wellFormed = true ∧ bs = encode i ++ rest) ∧
  (∀ (bs : List Byte) (b : Byte) (rest : List Byte), decodeFrame bs = .illegal b rest →
    bs = b :: rest ∧ (b = 0 ∨ 6 ≤ b.toNat))

/-- R77: a frame's length is found from its first byte alone, plus the LEN field for UPDATE. -/
def Obligations.FrameLengthIsFoundFromTheHead : Prop :=
  (∀ (f1 f2 f3 f4 : Byte) (body : List Byte) (i : Instr) (rest : List Byte),
    decodeFrame (0x02 :: f1 :: f2 :: f3 :: f4 :: body) = .command i rest →
    body.length + 5 = (5 + (f1.toNat + 2 ^ 8 * f2.toNat + 2 ^ 16 * f3.toNat + 2 ^ 24 * f4.toNat)) + rest.length) ∧
  (∀ (cmd : Byte) (rest : List Byte), cmd ≠ 0x02 →
    (∃ i, decodeFrame (cmd :: rest) = .command i rest) ∨ decodeFrame (cmd :: rest) = .illegal cmd rest)

/-- R78: an UPDATE frame whose LEN bytes or payload bytes have not all arrived is incomplete and the engine has no step
for it, so no state changes; when the missing bytes arrive the frame is performed. -/
def Obligations.IncompleteFrameWaits : Prop :=
  (∀ bs : List Byte, decodeFrame bs = .incomplete ↔
    bs = [] ∨ (∃ r, bs = 0x02 :: r ∧ (r.length < 4 ∨
      ∃ f1 f2 f3 f4 body, r = f1 :: f2 :: f3 :: f4 :: body ∧ body.length < lenField f1 f2 f3 f4))) ∧
  (∀ s : State, s.stream ≠ [] → decodeFrame s.stream = .incomplete → s.resets = [] →
    step s = .fault .incompleteFrame) ∧
  (∀ (s : State) (more : List Byte) (i : Instr) (rest : List Byte), decodeFrame s.stream = .incomplete →
    s.resets = [] → decodeFrame (s.stream ++ more) = .command i rest →
    step (s.hostSend more) = exec i (s.advance rest))

/-- R75: an illegal CMD byte is a one-byte frame, rejected with ILLEGAL_COMMAND in every LC state; the byte after it is
the first byte of the next frame. -/
def Obligations.IllegalByteIsRejectedAndConsumedAlone : Prop :=
  ∀ (s : State) (b : Byte) (rest : List Byte), (b = 0x00 ∨ 0x06 ≤ b.toNat) → s.stream = b :: rest →
    step s = .next
      { s with
        stream := rest
        err := true
        ecode := if s.err = true then s.ecode else 1
        responses := s.responses ++ [.err 1] }

/-- A step runs the decoded command (from R70, R100): when the stream holds the frame of a well-formed command, the step
is that command at the state with the frame consumed. -/
def Obligations.StepRunsTheDecodedCommand : Prop :=
  ∀ (s : State) (i : Instr) (rest : List Byte), i.wellFormed = true → s.stream = encode i ++ rest →
    step s = exec i { s with stream := rest }

/-- From R59: running the command stream is the left fold of the command rules over the sequence; a command does not see
the stream, and the commands after it do not change what it does. -/
def Obligations.StreamRunIsTheFoldOfItsCommands : Prop :=
  ∀ (is : List Instr) (s t : State) (rest : List Byte), (∀ i ∈ is, i.wellFormed = true) →
    s.stream = encodeAll is ++ rest → execAll is { s with stream := [] } = .next t →
    Host.Core.run core is.length s = .next { t with stream := rest }

/-- From R70 and R59: command bytes that arrive later do not change the frame being handled. -/
def Obligations.LaterBytesDoNotChangeAStep : Prop :=
  ∀ (s t : State) (more : List Byte), decodeFrame s.stream ≠ .incomplete → step s = .next t →
    step (s.hostSend more) = .next (t.hostSend more)

/-! ### The commands -/

/-- R102, R26: INIT is performed in every state.  It writes the initial accumulator, zeroes COUNT, takes every value out
of BUF and enters Fresh; ERR and ECODE keep their values, an RDDIGEST that follows is rejected, and a second INIT leaves
the same state as one, as far as the spec gives it a value, its response apart. -/
def Obligations.InitBeginsACleanSession : Prop :=
  ∀ s : State, ∃ t u : State, exec .init s = .next t ∧
    t.acc = ⟨0x67452301, 0xEFCDAB89, 0x98BADCFE, 0x10325476⟩ ∧ t.count = 0 ∧ t.lc = .fresh ∧
    (∀ a, t.buf.readByte a = none) ∧
    t.err = s.err ∧ t.ecode = s.ecode ∧ t.status.extractLsb' 0 2 = 1 ∧
    t.stream = s.stream ∧ t.resets = s.resets ∧ t.responses = s.responses ++ [.ok] ∧
    exec .rddigest t = .next (rejectedWith 5 t) ∧
    exec .init t = .next u ∧ SameDefined { u with responses := t.responses } t

/-- From R103, R105 (the corner case LEN = 0): a performed UPDATE without bytes changes LC only. -/
def Obligations.EmptyUpdateOnlyEntersAccumulating : Prop :=
  ∀ s : State, SessionOpen s →
    exec (.update []) s = .next { s with lc := .accumulating, responses := s.responses ++ [.ok] }

/-- R103, R105: the buffered bytes and the payload are one stream; every complete 64-byte block of it is compressed, in
order, and fewer than 64 bytes stay buffered.  Everything else is unchanged.  UPDATE is rejected in Idle and Finalized. -/
def Obligations.UpdateCompressesEveryCompleteBlock : Prop :=
  (∀ (s : State) (p : List Byte), SessionOpen s → BufHoldsFill s →
    ∃ t : State, exec (.update p) s = .next t ∧
      t.lc = .accumulating ∧ t.count = s.count + BitVec.ofNat 64 p.length ∧
      t.acc = foldBlocks ((bufferedBytes s ++ p).length / 64) s.acc (bufferedBytes s ++ p) ∧
      BufHoldsFill t ∧
      bufferedBytes t = (bufferedBytes s ++ p).drop (64 * ((bufferedBytes s ++ p).length / 64)) ∧
      t.responses = s.responses ++ [.ok] ∧ t.digest = s.digest ∧ t.err = s.err ∧ t.ecode = s.ecode ∧
      t.stream = s.stream ∧ t.resets = s.resets) ∧
  (∀ (s : State) (p : List Byte), s.lc = .idle → exec (.update p) s = .next (rejectedWith 2 s)) ∧
  (∀ (s : State) (p : List Byte), s.lc = .finalized → exec (.update p) s = .next (rejectedWith 3 s))

/-- From R53 and R104, the frame of BUF: while a payload does not complete the block, byte `k` of it lands at offset
`(COUNT + k) mod 64`, every other offset reads as before, and the accumulator is unchanged. -/
def Obligations.UpdateStoresAtTheFillAndNowhereElse : Prop :=
  ∀ (s : State) (p : List Byte), SessionOpen s → BufHoldsFill s → s.count.toNat % 64 + p.length < 64 →
    ∃ t : State, exec (.update p) s = .next t ∧ t.acc = s.acc ∧
      (∀ k, (h : k < p.length) → t.buf.readByte ((s.count.toNat + k) % 64) = some p[k]) ∧
      (∀ a, (∀ k, k < p.length → a ≠ (s.count.toNat + k) % 64) → t.buf.readByte a = s.buf.readByte a)

/-- From R53, R104 and R29, the block's last byte: the byte that makes fill 0 is stored at offset 63, the block is
compressed, and BUF then holds no valid byte. -/
def Obligations.SixtyFourthByteCompressesTheBlock : Prop :=
  ∀ (s : State) (v : Byte), SessionOpen s → BufHoldsFill s → s.count.toNat % 64 = 63 →
    ∃ (t : State) (blk : Block), exec (.update [v]) s = .next t ∧
      (∀ j, (h : j < 63) → s.buf.readByte j = some blk[j]) ∧ blk[63] = v ∧
      t.acc = compress s.acc blk ∧ t.count = s.count + 1 ∧ (∀ a, t.buf.readByte a = none)

/-- R106: performing `UPDATE c1; ...; UPDATE cn` leaves the same COUNT, the same valid buffered bytes and the same
accumulator as one UPDATE of the concatenation; LC differs only when no UPDATE is performed; and a FINAL after either
sequence yields the same DIGEST. -/
def Obligations.StreamingEquivalence : Prop :=
  ∀ (s : State) (cs : List (List Byte)), SessionOpen s → BufHoldsFill s →
    ∃ t u t' u' : State, execAll (cs.map Instr.update) s = .next t ∧ exec (.update cs.flatten) s = .next u ∧
      t.count = u.count ∧ t.acc = u.acc ∧ (∀ a, a < t.fill.toNat → t.buf.readByte a = u.buf.readByte a) ∧
      u.lc = .accumulating ∧ t.lc = (if cs = [] then s.lc else .accumulating) ∧
      exec .final t = .next t' ∧ exec .final u = .next u' ∧ t'.digest = u'.digest

/-- R107, R112: FINAL pads the fill valid bytes, compresses the one or two blocks in order, and latches and returns the
serialized accumulator; COUNT is unchanged and BUF holds no value.  It is rejected in Idle and Finalized. -/
def Obligations.FinalPadsCompressesAndLatchesTheDigest : Prop :=
  (∀ s : State, SessionOpen s → BufHoldsFill s →
    ∃ (t : State) (tail : Vector Byte s.fill.toNat), exec .final s = .next t ∧
      tail.toList = bufferedBytes s ∧
      t.acc = (pad tail s.fill.isLt s.count).foldl compress s.acc ∧
      (∀ j, (h : j < 4) → t.digest[j] = t.acc.a.extractLsb' (8 * j) 8 ∧
        t.digest[4 + j] = t.acc.b.extractLsb' (8 * j) 8 ∧ t.digest[8 + j] = t.acc.c.extractLsb' (8 * j) 8 ∧
        t.digest[12 + j] = t.acc.d.extractLsb' (8 * j) 8) ∧
      t.lc = .finalized ∧ t.count = s.count ∧ (∀ a, t.buf.readByte a = none) ∧
      t.responses = s.responses ++ [.okDigest t.digest] ∧ t.err = s.err ∧ t.ecode = s.ecode ∧
      t.stream = s.stream ∧ t.resets = s.resets ∧
      (∀ p, exec (.update p) t = .next (rejectedWith 3 t)) ∧ exec .final t = .next (rejectedWith 4 t)) ∧
  (∀ s : State, s.lc = .idle → exec .final s = .next (rejectedWith 2 s)) ∧
  (∀ s : State, s.lc = .finalized → exec .final s = .next (rejectedWith 4 s))

/-- R113, with the layout of R31: RDSTATUS is performed in every state, answers STATUS and changes nothing.  STATUS is LC's code in bits
1:0, ERR in bit 2, ECODE in bits 5:3 and zero in bits 7:6. -/
def Obligations.RdstatusReturnsStatusAndChangesNothing : Prop :=
  ∀ s : State, ∃ st : Byte,
    exec .rdstatus s = .next { s with responses := s.responses ++ [.okStatus st] } ∧
    st.extractLsb' 0 2 = (match s.lc with | .idle => 0 | .fresh => 1 | .accumulating => 2 | .finalized => 3) ∧
    st.getLsbD 2 = s.err ∧ st.extractLsb' 3 3 = s.ecode ∧ st.extractLsb' 6 2 = 0 ∧ st = s.status

/-- R114: RDDIGEST is performed in Finalized only, where it answers DIGEST and changes nothing; elsewhere it is
rejected with DIGEST_NOT_VALID and returns no digest byte. -/
def Obligations.RddigestReturnsTheLatchedDigest : Prop :=
  ∀ s : State,
    (s.lc = .finalized → exec .rddigest s = .next { s with responses := s.responses ++ [.okDigest s.digest] }) ∧
    (s.lc ≠ .finalized → exec .rddigest s = .next (rejectedWith 5 s))

/-! ### Rejection, status and the lifecycle -/

/-- R203, R235: each usage-order hazard is rejected with its code.  A rejection sets ERR, writes ECODE only if ERR was 0,
returns `ERR(code)` and changes nothing else. -/
def Obligations.RejectionIsPrecise : Prop :=
  (∀ (s : State) (p : List Byte), s.lc = .idle → exec (.update p) s = .next (rejectedWith 2 s)) ∧
  (∀ s : State, s.lc = .idle → exec .final s = .next (rejectedWith 2 s)) ∧
  (∀ (s : State) (p : List Byte), s.lc = .finalized → exec (.update p) s = .next (rejectedWith 3 s)) ∧
  (∀ s : State, s.lc = .finalized → exec .final s = .next (rejectedWith 4 s)) ∧
  (∀ s : State, s.lc ≠ .finalized → exec .rddigest s = .next (rejectedWith 5 s)) ∧
  (∀ (s : State) (b : Byte) (rest : List Byte), (b = 0x00 ∨ 0x06 ≤ b.toNat) → s.stream = b :: rest →
    step s = .next (rejectedWith 1 { s with stream := rest })) ∧
  (∀ (s : State) (code : BitVec 3),
    (rejectedWith code s).err = true ∧
    (s.err = false → (rejectedWith code s).ecode = code) ∧ (s.err = true → (rejectedWith code s).ecode = s.ecode) ∧
    (rejectedWith code s).responses = s.responses ++ [.err code] ∧
    (rejectedWith code s).lc = s.lc ∧ (rejectedWith code s).acc = s.acc ∧ (rejectedWith code s).buf = s.buf ∧
    (rejectedWith code s).count = s.count ∧ (rejectedWith code s).digest = s.digest)

/-- R80, R101: every frame that is performed or rejected returns exactly one response, and which one is fixed by the
command and LC: `ERR(code)` in the rejected cells of the legality table and for an illegal byte, `OK`, `OK(st)` or
`OK(dg)` in the others. -/
def Obligations.EachCommandReturnsExactlyOneResponse : Prop :=
  (∀ (s : State) (b : Byte) (rest : List Byte), (b = 0x00 ∨ 0x06 ≤ b.toNat) → s.stream = b :: rest →
    ∃ t, step s = .next t ∧ t.responses = s.responses ++ [.err 1]) ∧
  (∀ (i : Instr) (s t : State), exec i s = .next t →
    t.responses = s.responses ++ [
      match i, s.lc with
      | .init, _ => .ok
      | .update _, .idle => .err 2
      | .update _, .fresh => .ok
      | .update _, .accumulating => .ok
      | .update _, .finalized => .err 3
      | .final, .idle => .err 2
      | .final, .fresh => .okDigest t.digest
      | .final, .accumulating => .okDigest t.digest
      | .final, .finalized => .err 4
      | .rdstatus, _ => .okStatus s.status
      | .rddigest, .idle => .err 5
      | .rddigest, .fresh => .err 5
      | .rddigest, .accumulating => .err 5
      | .rddigest, .finalized => .okDigest s.digest])

/-- R23: the lifecycle transitions, complete.  No command moves LC back to Idle. -/
def Obligations.LifecycleTransitionsAreComplete : Prop :=
  ∀ (i : Instr) (s t : State), exec i s = .next t →
    (t.lc = .idle → s.lc = .idle) ∧
    t.lc = (match i, s.lc with
      | .init, _ => .fresh
      | .update _, .fresh => .accumulating
      | .update _, .accumulating => .accumulating
      | .update _, .idle => .idle
      | .update _, .finalized => .finalized
      | .final, .fresh => .finalized
      | .final, .accumulating => .finalized
      | .final, .idle => .idle
      | .final, .finalized => .finalized
      | .rdstatus, lc => lc
      | .rddigest, lc => lc)

/-- From R32 and R33: a step that rejects a frame sets ERR and writes ECODE only if ERR was 0; a performed command changes
neither; only a reset event clears them; ECODE never becomes 6 or 7.  That a reset event takes its step only with no
complete frame left in front of it, and that it leaves the responses, is the model's choice (assumption 7, DESIGN CHOICE),
not a rule of the spec. -/
def Obligations.OnlyResetClearsTheErrorStatus : Prop :=
  ∀ s t : State, step s = .next t →
    ((∃ code : BitVec 3, t.responses = s.responses ++ [.err code] ∧ t.err = true ∧
        t.ecode = (if s.err = true then s.ecode else code)) ∨
     (∃ r : Response, (∀ code, r ≠ .err code) ∧ t.responses = s.responses ++ [r] ∧ t.err = s.err ∧ t.ecode = s.ecode) ∨
     (decodeFrame s.stream = .incomplete ∧ s.resets ≠ [] ∧ t.responses = s.responses ∧ t.err = false ∧ t.ecode = 0)) ∧
    (s.ecode.toNat ≤ 5 → t.ecode.toNat ≤ 5)

/-- From R34 and R114 ("Immutable once produced"): while the engine stays Finalized no step changes DIGEST, the
accumulator or COUNT. -/
def Obligations.DigestIsImmutableOnceProduced : Prop :=
  ∀ s t : State, s.lc = .finalized → step s = .next t → t.lc = .finalized →
    t.digest = s.digest ∧ t.acc = s.acc ∧ t.count = s.count

/-- From R24 and R28: COUNT and the accumulator change only under INIT, UPDATE, FINAL or a reset event; the other
commands, and every rejection, leave them, BUF and DIGEST alone. -/
def Obligations.OnlySessionCommandsChangeTheSession : Prop :=
  ∀ (i : Instr) (s t : State), exec i s = .next t →
    (t.acc = s.acc ∧ t.count = s.count ∧ t.buf = s.buf ∧ t.digest = s.digest ∧ t.lc = s.lc) ∨
    i = .init ∨ (∃ p, i = .update p ∧ SessionOpen s) ∨ (i = .final ∧ SessionOpen s)

/-! ### Reset and the invariant -/

/-- R230 at power-on, where the spec gives a value: LC is Idle, ERR and ECODE are 0, STATUS is 0x00, BUF holds no value,
and the engine waits for its first frame (R231). -/
def Obligations.ResetLeavesTheEngineIdle : Prop :=
  State.reset.lc = .idle ∧ State.reset.err = false ∧ State.reset.ecode = 0 ∧ State.reset.status = 0x00 ∧
  (∀ a, State.reset.buf.readByte a = none) ∧ step State.reset = .fault .noFrame

/-- From R230: a reset event lands between commands.  It discards an incomplete frame, takes LC to Idle and clears ERR
and ECODE from every state, and the bytes sent after it start a new frame.  That a waiting reset event lands when no
complete frame is left in front of it, and that the responses already returned stay, is the model's choice (assumption 7,
DESIGN CHOICE); R230 says neither. -/
def Obligations.ResetEventDiscardsTheIncompleteFrame : Prop :=
  ∀ (s : State) (seg : List Byte) (later : List (List Byte)), decodeFrame s.stream = .incomplete →
    s.resets = seg :: later →
    ∃ t : State, step s = .next t ∧ t.lc = .idle ∧ t.err = false ∧ t.ecode = 0 ∧ t.status = 0x00 ∧
      (∀ a, t.buf.readByte a = none) ∧ t.stream = seg ∧ t.resets = later ∧ t.responses = s.responses

/-- The invariant holds right after reset (derived). -/
def Obligations.ResetMeetsTheInvariant : Prop := Inv State.reset

/-- Every step keeps the invariant (derived from R22, R30, R31, R33 and R34): BUF holds exactly COUNT mod 64 valid bytes
while a session is open and none otherwise, DIGEST is the serialized accumulator in Finalized, ECODE is legal and is 0
exactly while ERR is 0. -/
def Obligations.StepKeepsTheInvariant : Prop :=
  ∀ s t : State, Inv s → step s = .next t → Inv t

/-- From R230 and 93_implementation_defined.md I12: no state that meets the invariant reads a value that is not there.
Whenever a frame is complete or a reset event waits, the engine takes its step.  Where a waiting reset event lands is the
model's choice (assumption 7). -/
def Obligations.NoValueIsNeverRead : Prop :=
  ∀ s : State, Inv s → (decodeFrame s.stream ≠ .incomplete ∨ s.resets ≠ []) → ∃ t, step s = .next t

/-- From R29, R230 and R241: what the spec calls `⊥` is never observed.  Two states that agree on everything that holds a
value take the same kind of step, agree again after it, and show the host the same. -/
def Obligations.UndefinedValuesAreUnobservable : Prop :=
  ∀ s t : State, SameDefined s t →
    s.observe = t.observe ∧
    (∀ s', step s = .next s' → ∃ t', step t = .next t' ∧ SameDefined s' t') ∧
    (∀ f, step s = .fault f → step t = .fault f)

/-! ### Padding, compression and byte order -/

/-- R108, R109: PAD answers one block while fill is at most 55 and two from 56 on, with these bytes. -/
def Obligations.PaddingHasOneOrTwoBlocks : Prop :=
  ∀ (n : Nat) (tail : Vector Byte n) (hn : n < 64) (count : Count),
    (pad tail hn count).map Vector.toList =
      if n ≤ 55 then
        [tail.toList ++ [0x80] ++ List.replicate (55 - n) 0 ++ (le64bytes (count * 8)).toList]
      else
        [tail.toList ++ [0x80] ++ List.replicate (63 - n) 0,
         List.replicate 56 0 ++ (le64bytes (count * 8)).toList]

/-- R110: bytes 56 to 63 of the last padding block are the bit length modulo 2^64, little-endian; COUNT counts modulo
2^64, and the field is still the true bit length modulo 2^64. -/
def Obligations.LengthFieldIsTheBitLength : Prop :=
  ∀ (n : Nat) (tail : Vector Byte n) (hn : n < 64) (total : Nat) (j : Nat) (_hj : j < 8),
    ∃ blk : Block, (pad tail hn (BitVec.ofNat 64 total)).getLast? = some blk ∧
      blk[56 + j].toNat = (8 * total % 2 ^ 64) / 2 ^ (8 * j) % 2 ^ 8

/-- R111: the zero bytes between the 0x80 byte and the length field, summed over both blocks, are `(55 - fill) mod 64`,
and the padded message is a whole number of blocks. -/
def Obligations.PaddedMessageIsWholeBlocks : Prop :=
  ∀ (n : Nat) (tail : Vector Byte n) (hn : n < 64) (count : Count),
    ∃ z : Nat, z < 64 ∧ (n + z) % 64 = 55 ∧
      ((pad tail hn count).map Vector.toList).flatten =
        tail.toList ++ [0x80] ++ List.replicate z 0 ++ (le64bytes (count * 8)).toList ∧
      ∀ total : Nat, total % 64 = n → (total + 9 + z) % 64 = 0

/-- R140, R142, R152, R153, R154: COMPRESS copies the accumulator, runs rounds 0 to 63 in order, each on the output of
the one before, and adds the result into the incoming accumulator. -/
def Obligations.CompressIsSixtyFourRoundsAndFeedForward : Prop :=
  ∀ (acc : Accum) (blk : Block) (w : Nat → Accum), w 0 = acc →
    (∀ r : Fin 64, w (r.val + 1) =
      { a := (w r.val).d
        b := (w r.val).b + rotl32 ((w r.val).a + mixOf r (w r.val).b (w r.val).c (w r.val).d + tableK[r] +
          (wordsOf blk)[permOf r]) (shiftOf r)
        c := (w r.val).b
        d := (w r.val).c }) →
    compress acc blk =
      { a := acc.a + (w 64).a, b := acc.b + (w 64).b, c := acc.c + (w 64).c, d := acc.d + (w 64).d }

/-- R143 to R147: the mixing function of each pass, bit by bit. -/
def Obligations.MixingFunctionsBitByBit : Prop :=
  ∀ (r : Fin 64) (b c d : Word) (k : Nat) (_hk : k < 32),
    (mixOf r b c d).getLsbD k =
      if r.val < 16 then (if b.getLsbD k = true then c.getLsbD k else d.getLsbD k)
      else if r.val < 32 then (if d.getLsbD k = true then b.getLsbD k else c.getLsbD k)
      else if r.val < 48 then (b.getLsbD k ^^ (c.getLsbD k ^^ d.getLsbD k))
      else (c.getLsbD k ^^ (b.getLsbD k || !d.getLsbD k))

/-- R148: for the amounts the rounds use, bit `k` goes to bit `k + n` within 32 bits, wrapping. -/
def Obligations.RotationWrapsWithinTheWord : Prop :=
  ∀ (x : Word) (n k : Nat), 1 ≤ n → n ≤ 31 → k < 32 →
    (rotl32 x n).getLsbD ((k + n) % 32) = x.getLsbD k

/-- R157: the round schedule, one (K, S, P) row for each round, and the mixing function of each pass (R143). -/
def Obligations.RoundScheduleIsTheTable : Prop :=
  (List.finRange 64).map (fun r => (tableK[r], shiftOf r, (permOf r).val)) =
  [(0xD76AA478, 7, 0), (0xE8C7B756, 12, 1), (0x242070DB, 17, 2), (0xC1BDCEEE, 22, 3),
    (0xF57C0FAF, 7, 4), (0x4787C62A, 12, 5), (0xA8304613, 17, 6), (0xFD469501, 22, 7),
    (0x698098D8, 7, 8), (0x8B44F7AF, 12, 9), (0xFFFF5BB1, 17, 10), (0x895CD7BE, 22, 11),
    (0x6B901122, 7, 12), (0xFD987193, 12, 13), (0xA679438E, 17, 14), (0x49B40821, 22, 15)] ++
  [(0xF61E2562, 5, 1), (0xC040B340, 9, 6), (0x265E5A51, 14, 11), (0xE9B6C7AA, 20, 0),
    (0xD62F105D, 5, 5), (0x02441453, 9, 10), (0xD8A1E681, 14, 15), (0xE7D3FBC8, 20, 4),
    (0x21E1CDE6, 5, 9), (0xC33707D6, 9, 14), (0xF4D50D87, 14, 3), (0x455A14ED, 20, 8),
    (0xA9E3E905, 5, 13), (0xFCEFA3F8, 9, 2), (0x676F02D9, 14, 7), (0x8D2A4C8A, 20, 12)] ++
  [(0xFFFA3942, 4, 5), (0x8771F681, 11, 8), (0x6D9D6122, 16, 11), (0xFDE5380C, 23, 14),
    (0xA4BEEA44, 4, 1), (0x4BDECFA9, 11, 4), (0xF6BB4B60, 16, 7), (0xBEBFBC70, 23, 10),
    (0x289B7EC6, 4, 13), (0xEAA127FA, 11, 0), (0xD4EF3085, 16, 3), (0x04881D05, 23, 6),
    (0xD9D4D039, 4, 9), (0xE6DB99E5, 11, 12), (0x1FA27CF8, 16, 15), (0xC4AC5665, 23, 2)] ++
  [(0xF4292244, 6, 0), (0x432AFF97, 10, 7), (0xAB9423A7, 15, 14), (0xFC93A039, 21, 5),
    (0x655B59C3, 6, 12), (0x8F0CCC92, 10, 3), (0xFFEFF47D, 15, 10), (0x85845DD1, 21, 1),
    (0x6FA87E4F, 6, 8), (0xFE2CE6E0, 10, 15), (0xA3014314, 15, 6), (0x4E0811A1, 21, 13),
    (0xF7537E82, 6, 4), (0xBD3AF235, 10, 11), (0x2AD7D2BB, 15, 2), (0xEB86D391, 21, 9)] ∧
  (∀ (r : Fin 64) (b c d : Word), mixOf r b c d =
    (if r.val < 16 then mixF1 b c d else if r.val < 32 then mixF2 b c d else if r.val < 48 then mixF3 b c d
      else mixF4 b c d))

/-- From R148, R150 and R151: every rotation amount lies in 4..23, amounts depend on the pass and `r mod 4`, and in each
pass every message word is read exactly once. -/
def Obligations.EachPassReadsEveryMessageWordOnce : Prop :=
  (∀ r : Fin 64, 4 ≤ shiftOf r ∧ shiftOf r ≤ 23) ∧
  (∀ r r' : Fin 64, r.val / 16 = r'.val / 16 → r.val % 4 = r'.val % 4 → shiftOf r = shiftOf r') ∧
  (∀ (p : Fin 4) (i : Fin 16), ∃ r : Fin 64, r.val / 16 = p.val ∧ permOf r = i ∧
    ∀ r' : Fin 64, r'.val / 16 = p.val → permOf r' = i → r' = r)

/-- R52, R141: BUF is written as bytes and read as words; the byte at offset `4i + j` supplies bits `8j+7 : 8j` of
message word `i`. -/
def Obligations.MessageWordsAreLittleEndianReadsOfBuf : Prop :=
  ∀ (m : Memory) (blk : Block), m.readPrefix 64 = some blk →
    ∀ (i j : Nat) (_hi : i < 16) (_hj : j < 4),
      m.readByte (4 * i + j) = some ((wordsOf blk)[i].extractLsb' (8 * j) 8)

/-- R181: le32bytes lists the bytes of a word from the least significant on, and it and le32 are inverse to each other. -/
def Obligations.WordSerializationRoundTrips : Prop :=
  (∀ w : Word, (le32bytes w).toList =
    [w.extractLsb' 0 8, w.extractLsb' 8 8, w.extractLsb' 16 8, w.extractLsb' 24 8]) ∧
  (∀ b0 b1 b2 b3 : Byte, (le32bytes (le32 b0 b1 b2 b3)).toList = [b0, b1, b2, b3]) ∧
  (∀ w : Word, le32 (le32bytes w)[0] (le32bytes w)[1] (le32bytes w)[2] (le32bytes w)[3] = w)

/-- R183: digest byte `4i + j` is bits `8j+7 : 8j` of accumulator word `i`, A first. -/
def Obligations.DigestIsTheLittleEndianAccumulator : Prop :=
  ∀ (acc : Accum) (i j : Nat) (_hi : i < 4) (_hj : j < 4),
    (serializeDigest acc)[4 * i + j] = (#v[acc.a, acc.b, acc.c, acc.d][i]).extractLsb' (8 * j) 8

/-! ### Whole sessions, several engines, and the host's text -/

/-- R116: the digest of INIT, any split of a message into UPDATEs, and FINAL is the padded message folded block by block
through COMPRESS, written without the engine.  It depends on the message alone, and not on the state before INIT, on ERR,
or on how the message is split. -/
def Obligations.SessionDigestIsTheHashOfTheMessage : Prop :=
  ∀ (s : State) (cs : List (List Byte)), ∃ t : State,
    execAll ([.init] ++ cs.map Instr.update ++ [.final]) s = .next t ∧
    t.lc = .finalized ∧ t.digest = hashOf cs.flatten ∧
    t.responses = s.responses ++ List.replicate (cs.length + 1) .ok ++ [.okDigest (hashOf cs.flatten)] ∧
    t.err = s.err ∧ t.ecode = s.ecode

/-- R64: the engines of a system share no state: a step of one leaves every other as it was and is that engine's own
step; each leaves reset in the reset state.  This for every number of engines from 1 up (`n`, R5's NUM_ENGINES). -/
def Obligations.EnginesShareNoState : Prop :=
  (∀ (n : Config.NumEngines) (i : Fin n.val) (sys sys' : System n), systemStep i sys = .next sys' →
    step sys[i] = .next sys'[i] ∧ ∀ j : Fin n.val, j ≠ i → sys'[j] = sys[j]) ∧
  (∀ (n : Config.NumEngines) (i j : Fin n.val) (sys si sj : System n), i ≠ j →
    systemStep i sys = .next si → systemStep j sys = .next sj →
    systemStep j si = systemStep i sj) ∧
  (∀ (n : Config.NumEngines) (i : Fin n.val), (systemReset n)[i] = State.reset)

/-- R83: the pseudo-instruction HASH emits the frames of INIT, UPDATE and FINAL, and run on any engine that is given them
it returns the digest of its payload as FINAL's response.  HASH accepts every payload syntax that UPDATE accepts. -/
def Obligations.HashLineReturnsTheDigest : Prop :=
  (∀ (s : State) (p : List Byte), p.length < 2 ^ 32 →
    AsmLine.expand (.hash p) = [.init, .update p, .final] ∧
    ∃ (bs : List Byte) (t : State), assembleLine (.hash p) = some bs ∧
      assembleProgram (AsmLine.expand (.hash p)) = some bs ∧
      ∀ rest, s.stream = bs ++ rest →
        Host.Core.run core 3 s = .next { t with stream := rest } ∧
        t.responses = s.responses ++ [.ok, .ok, .okDigest (hashOf p)]) ∧
  (∀ ts : List Token, parseTokens (.word textHash :: ts) = (parsePayload ts).map .hash ∧
    parseTokens (.word textUpdate :: ts) = (parsePayload ts).map .update)

/-- From R84: a disassembler prints a frame as the line that assembles to it (the text of an UPDATE without bytes and
the printed letter case and spacing are the model's choice, assumption 9). -/
def Obligations.DisassemblyAssemblesBack : Prop :=
  (∀ (bs rest : List Byte) (i : Instr), decodeFrame bs = .command i rest →
    ∃ l : AsmLine, disassemble (decodeFrame bs) = some l ∧ parseLine (printLine l) = some (some l) ∧
      ∃ frame, assembleLine l = some frame ∧ bs = frame ++ rest) ∧
  (∀ (bs rest : List Byte) (b : Byte), decodeFrame bs = .illegal b rest →
    ∃ l : AsmLine, disassemble (decodeFrame bs) = some l ∧ parseLine (printLine l) = some (some l) ∧
      assembleLine l = some [b] ∧ bs = [b] ++ rest)

/-- R186: the hexadecimal display is 32 characters, two for each byte in order, most significant nibble first, in
lowercase. -/
def Obligations.HexDisplayShowsEachByteInOrder : Prop :=
  (List.range 16).map hexDigit =
    ['0', '1', '2', '3', '4', '5', '6', '7', '8', '9', 'a', 'b', 'c', 'd', 'e', 'f'] ∧
  ∀ (dg : Digest) (j : Nat) (_hj : j < 16),
    (hexDisplay dg).length = 32 ∧
    (hexDisplay dg)[2 * j]? = some (hexDigit (dg[j].toNat / 16)) ∧
    (hexDisplay dg)[2 * j + 1]? = some (hexDigit (dg[j].toNat % 16))
end

