-- ==== Sys2Proof/Laws/Memory.lean ====
section
/-! SUPPORT. BUF: a read after a write, the canonical form, and prefixes. -/

namespace Sys2Proof.Machine

/-- A read after a write of one cell. -/
theorem Memory.readByte_writeCell (m : Memory) (h : m.Pairwise (fun x y => x.1 < y.1)) (a : Nat) (v : Byte) (x : Nat) :
    (m.writeCell a v).readByte x = if x = a then some v else m.readByte x := by
  induction m with
  | nil => simp [Memory.writeCell, Memory.readByte, eq_comm]
  | cons c m ih =>
    obtain ⟨k, b⟩ := c
    obtain ⟨h1, h2⟩ := List.pairwise_cons.mp h
    by_cases hx : x = a
    · subst hx
      by_cases h3 : x < k
      · simp [Memory.writeCell, Memory.readByte, h3]
      · by_cases h4 : x = k
        · simp [Memory.writeCell, Memory.readByte, h4]
        · simp [Memory.writeCell, Memory.readByte, h3, h4, ih h2, Ne.symm h4]
    · by_cases h3 : a < k
      · simp [Memory.writeCell, Memory.readByte, h3, hx, Ne.symm hx]
      · by_cases h4 : a = k
        · subst h4
          simp [Memory.writeCell, Memory.readByte, hx, Ne.symm hx]
        · simp [Memory.writeCell, Memory.readByte, h3, h4, hx, ih h2]

/-- Every cell after a write is the written one or an old one. -/
theorem Memory.mem_writeCell (m : Memory) (a : Nat) (v : Byte) (c : Host.Cell) (h : c ∈ m.writeCell a v) :
    c = (a, v) ∨ c ∈ m := by
  induction m with
  | nil => simpa [Memory.writeCell] using h
  | cons d m ih =>
    obtain ⟨k, b⟩ := d
    by_cases h1 : a < k
    · simpa [Memory.writeCell, h1] using h
    · by_cases h2 : a = k
      · simp only [Memory.writeCell, h2, lt_irrefl, if_false, if_true, List.mem_cons] at h
        rcases h with h | h
        · exact .inl (by simpa [h2] using h)
        · exact .inr (by simp [h])
      · simp only [Memory.writeCell, h1, h2, if_false, List.mem_cons] at h
        rcases h with h | h
        · exact .inr (by simp [h])
        · rcases ih h with h | h
          · exact .inl h
          · exact .inr (by simp [h])

/-- A write keeps the offsets strictly rising. -/
theorem Memory.writeCell_pairwise (m : Memory) (a : Nat) (v : Byte) (h : m.Pairwise (fun x y => x.1 < y.1)) :
    (m.writeCell a v).Pairwise (fun x y => x.1 < y.1) := by
  induction m with
  | nil => simp [Memory.writeCell]
  | cons d m ih =>
    obtain ⟨k, b⟩ := d
    obtain ⟨h1, h2⟩ := List.pairwise_cons.mp h
    by_cases h3 : a < k
    · simp only [Memory.writeCell, h3, if_true]
      refine List.pairwise_cons.mpr ⟨fun c hc => ?_, h⟩
      rcases List.mem_cons.mp hc with hc | hc
      · simpa [hc] using h3
      · have := h1 c hc
        simp only at this ⊢
        omega
    · by_cases h4 : a = k
      · subst h4
        simp only [Memory.writeCell, lt_irrefl, if_false, if_true]
        exact List.pairwise_cons.mpr ⟨fun c hc => by simpa using h1 c hc, h2⟩
      · simp only [Memory.writeCell, h3, h4, if_false]
        refine List.pairwise_cons.mpr ⟨fun c hc => ?_, ih h2⟩
        rcases Memory.mem_writeCell m a v c hc with hc | hc
        · subst hc
          simp only
          omega
        · exact h1 c hc

/-- Every memory operation keeps the canonical form: the write of one byte. -/
theorem Memory.writeByte_wf (m : Memory) (a : BitVec 6) (v : Byte) (h : m.wf) : (m.writeByte a v).wf := by
  refine ⟨Memory.writeCell_pairwise m a.toNat v h.1, fun c hc => ?_⟩
  rcases Memory.mem_writeCell m a.toNat v c hc with hc | hc
  · subst hc
    exact a.isLt
  · exact h.2 c hc

/-- Every memory operation keeps the canonical form: taking every value away. -/
theorem Memory.noValues_wf : Memory.noValues.wf := ⟨List.Pairwise.nil, by simp [Memory.noValues]⟩

/-- Reset memory is in canonical form. -/
theorem reset_buf_wf : State.reset.buf.wf := Memory.noValues_wf

/-- A read after the write of one byte. -/
theorem Memory.readByte_writeByte (m : Memory) (h : m.wf) (a : BitVec 6) (v : Byte) (x : Nat) :
    (m.writeByte a v).readByte x = if x = a.toNat then some v else m.readByte x :=
  Memory.readByte_writeCell m h.1 a.toNat v x

@[simp] theorem Memory.readByte_noValues (x : Nat) : Memory.noValues.readByte x = none := rfl

/-- A prefix is read exactly when every offset of it holds a value. -/
theorem Memory.readPrefix_eq_some (m : Memory) (n : Nat) (bs : Vector Byte n) :
    m.readPrefix n = some bs ↔ ∀ i, (h : i < n) → m.readByte i = some bs[i] := by
  induction n with
  | zero =>
    simp only [Memory.readPrefix, Option.some.injEq]
    exact ⟨fun _ i h => absurd h (Nat.not_lt_zero i), fun _ => by ext i h; omega⟩
  | succ n ih =>
    constructor
    · intro h i hi
      simp only [Memory.readPrefix] at h
      split at h
      · rename_i v b hv hb
        obtain rfl := Option.some.inj h
        by_cases hin : i = n
        · subst hin; simp [hb]
        · have hlt : i < n := by omega
          rw [(ih v).mp hv i hlt]
          simp [hlt]
      · cases h
    · intro h
      have hv : m.readPrefix n = some bs.pop := by
        refine (ih bs.pop).mpr fun i hi => ?_
        rw [h i (by omega)]
        simp
      have hb := h n (by omega)
      simp only [Memory.readPrefix, hv, hb]
      congr 1
      ext i hi
      by_cases hin : i = n
      · subst hin; simp
      · simp [show i < n by omega]

/-- Two memories that agree below `n` have the same prefix. -/
theorem Memory.readPrefix_congr (m m' : Memory) (n : Nat) (h : ∀ i, i < n → m.readByte i = m'.readByte i) :
    m.readPrefix n = m'.readPrefix n := by
  induction n with
  | zero => rfl
  | succ n ih => simp [Memory.readPrefix, ih fun i hi => h i (by omega), h n (by omega)]

/-- Reading a memory whose offsets are consecutive from `k`. -/
theorem Memory.readByte_consecutive (m : Memory) (k n x : Nat) (h : m.map Prod.fst = List.range' k n) :
    m.readByte x = if k ≤ x then (m.map Prod.snd)[x - k]? else none := by
  induction m generalizing k n with
  | nil => simp [Memory.readByte]
  | cons c m ih =>
    obtain ⟨a, b⟩ := c
    cases n with
    | zero => simp at h
    | succ n =>
      simp only [List.map_cons, List.range'_succ, List.cons.injEq] at h
      obtain ⟨rfl, h⟩ := h
      rw [Memory.readByte]
      by_cases hx : a = x
      · subst hx; simp
      · rw [if_neg hx, ih (a + 1) n h]
        by_cases h1 : a ≤ x
        · have h2 : x - a = (x - (a + 1)) + 1 := by omega
          simp [h1, show a + 1 ≤ x by omega, h2]
        · simp [h1, show ¬ a + 1 ≤ x by omega]

/-- Reading a memory that lists exactly the offsets `0..n-1`. -/
theorem Memory.readByte_range (m : Memory) (n x : Nat) (h : m.map Prod.fst = List.range n) :
    m.readByte x = (m.map Prod.snd)[x]? := by
  rw [List.range_eq_range'] at h
  simpa using Memory.readByte_consecutive m 0 n x h

/-- A write behind every listed offset appends. -/
theorem Memory.writeCell_append (m : Memory) (a : Nat) (v : Byte) (h : ∀ c ∈ m, c.1 < a) :
    m.writeCell a v = m ++ [(a, v)] := by
  induction m with
  | nil => rfl
  | cons c m ih =>
    obtain ⟨k, b⟩ := c
    have hk : k < a := h (k, b) (by simp)
    simp only [Memory.writeCell, show ¬ a < k by omega, show ¬ a = k by omega, if_false, List.cons_append]
    rw [ih fun c hc => h c (by simp [hc])]

/-- A memory that lists exactly the offsets `0..n-1` is written at `n` by appending. -/
theorem Memory.writeCell_range (m : Memory) (n : Nat) (v : Byte) (h : m.map Prod.fst = List.range n) :
    m.writeCell n v = m ++ [(n, v)] := by
  refine Memory.writeCell_append m n v fun c hc => ?_
  have : c.1 ∈ m.map Prod.fst := List.mem_map_of_mem hc
  rw [h] at this
  exact List.mem_range.mp this

/-- A memory that lists exactly the offsets `0..n-1` is in canonical form. -/
theorem Memory.wf_of_range (m : Memory) (n : Nat) (hn : n ≤ 64) (h : m.map Prod.fst = List.range n) : m.wf := by
  constructor
  · have : (m.map Prod.fst).Pairwise (· < ·) := by rw [h]; exact List.pairwise_lt_range
    exact (List.pairwise_map.mp this)
  · intro c hc
    have : c.1 ∈ m.map Prod.fst := List.mem_map_of_mem hc
    rw [h] at this
    have := List.mem_range.mp this
    simp only [Config.blockBytes]
    omega

/-- A memory that lists exactly the offsets `0..n-1` has them all as its prefix. -/
theorem Memory.readPrefix_range (m : Memory) (n : Nat) (h : m.map Prod.fst = List.range n) :
    ∃ bs : Vector Byte n, m.readPrefix n = some bs ∧ bs.toList = m.map Prod.snd := by
  have hlen : (m.map Prod.snd).length = n := by
    have := congrArg List.length h
    simpa using this
  refine ⟨⟨(m.map Prod.snd).toArray, by simpa using hlen⟩, ?_, by simp⟩
  refine (Memory.readPrefix_eq_some m n _).mpr fun i hi => ?_
  rw [Memory.readByte_range m n i h]
  simp only [Vector.getElem_mk, List.getElem_toArray]
  exact List.getElem?_eq_getElem (by omega)

end Sys2Proof.Machine
end

