-- ==== Sys2Proof/Laws/State.lean ====
section
/-! SUPPORT. One lemma per field of State per named update, each true by rfl, so that no later proof unfolds a record
update. -/

namespace Sys2Proof.Machine

@[simp] theorem State.respond_lc (r : Response) (s : State) : (s.respond r).lc = s.lc := rfl
@[simp] theorem State.respond_acc (r : Response) (s : State) : (s.respond r).acc = s.acc := rfl
@[simp] theorem State.respond_buf (r : Response) (s : State) : (s.respond r).buf = s.buf := rfl
@[simp] theorem State.respond_count (r : Response) (s : State) : (s.respond r).count = s.count := rfl
@[simp] theorem State.respond_digest (r : Response) (s : State) : (s.respond r).digest = s.digest := rfl
@[simp] theorem State.respond_err (r : Response) (s : State) : (s.respond r).err = s.err := rfl
@[simp] theorem State.respond_ecode (r : Response) (s : State) : (s.respond r).ecode = s.ecode := rfl
@[simp] theorem State.respond_stream (r : Response) (s : State) : (s.respond r).stream = s.stream := rfl
@[simp] theorem State.respond_resets (r : Response) (s : State) : (s.respond r).resets = s.resets := rfl
@[simp] theorem State.respond_responses (r : Response) (s : State) : (s.respond r).responses = s.responses ++ [r] := rfl
@[simp] theorem State.respond_freeCtr (r : Response) (s : State) : (s.respond r).freeCtr = s.freeCtr := rfl

@[simp] theorem State.setLc_lc (lc : Lifecycle) (s : State) : (s.setLc lc).lc = lc := rfl
@[simp] theorem State.setLc_acc (lc : Lifecycle) (s : State) : (s.setLc lc).acc = s.acc := rfl
@[simp] theorem State.setLc_buf (lc : Lifecycle) (s : State) : (s.setLc lc).buf = s.buf := rfl
@[simp] theorem State.setLc_count (lc : Lifecycle) (s : State) : (s.setLc lc).count = s.count := rfl
@[simp] theorem State.setLc_digest (lc : Lifecycle) (s : State) : (s.setLc lc).digest = s.digest := rfl
@[simp] theorem State.setLc_err (lc : Lifecycle) (s : State) : (s.setLc lc).err = s.err := rfl
@[simp] theorem State.setLc_ecode (lc : Lifecycle) (s : State) : (s.setLc lc).ecode = s.ecode := rfl
@[simp] theorem State.setLc_stream (lc : Lifecycle) (s : State) : (s.setLc lc).stream = s.stream := rfl
@[simp] theorem State.setLc_resets (lc : Lifecycle) (s : State) : (s.setLc lc).resets = s.resets := rfl
@[simp] theorem State.setLc_responses (lc : Lifecycle) (s : State) : (s.setLc lc).responses = s.responses := rfl
@[simp] theorem State.setLc_freeCtr (lc : Lifecycle) (s : State) : (s.setLc lc).freeCtr = s.freeCtr := rfl

@[simp] theorem State.advance_lc (rest : List Byte) (s : State) : (s.advance rest).lc = s.lc := rfl
@[simp] theorem State.advance_acc (rest : List Byte) (s : State) : (s.advance rest).acc = s.acc := rfl
@[simp] theorem State.advance_buf (rest : List Byte) (s : State) : (s.advance rest).buf = s.buf := rfl
@[simp] theorem State.advance_count (rest : List Byte) (s : State) : (s.advance rest).count = s.count := rfl
@[simp] theorem State.advance_digest (rest : List Byte) (s : State) : (s.advance rest).digest = s.digest := rfl
@[simp] theorem State.advance_err (rest : List Byte) (s : State) : (s.advance rest).err = s.err := rfl
@[simp] theorem State.advance_ecode (rest : List Byte) (s : State) : (s.advance rest).ecode = s.ecode := rfl
@[simp] theorem State.advance_stream (rest : List Byte) (s : State) : (s.advance rest).stream = rest := rfl
@[simp] theorem State.advance_resets (rest : List Byte) (s : State) : (s.advance rest).resets = s.resets := rfl
@[simp] theorem State.advance_responses (rest : List Byte) (s : State) : (s.advance rest).responses = s.responses := rfl
@[simp] theorem State.advance_freeCtr (rest : List Byte) (s : State) : (s.advance rest).freeCtr = s.freeCtr := rfl

@[simp] theorem raiseUsageError_lc (e : UsageError) (s : State) :
    (raiseUsageError e s).lc = s.lc := rfl
@[simp] theorem raiseUsageError_acc (e : UsageError) (s : State) :
    (raiseUsageError e s).acc = s.acc := rfl
@[simp] theorem raiseUsageError_buf (e : UsageError) (s : State) :
    (raiseUsageError e s).buf = s.buf := rfl
@[simp] theorem raiseUsageError_count (e : UsageError) (s : State) :
    (raiseUsageError e s).count = s.count := rfl
@[simp] theorem raiseUsageError_digest (e : UsageError) (s : State) :
    (raiseUsageError e s).digest = s.digest := rfl
@[simp] theorem raiseUsageError_err (e : UsageError) (s : State) :
    (raiseUsageError e s).err = true := rfl
@[simp] theorem raiseUsageError_ecode (e : UsageError) (s : State) :
    (raiseUsageError e s).ecode = (if s.err then s.ecode else e.code) := rfl
@[simp] theorem raiseUsageError_stream (e : UsageError) (s : State) :
    (raiseUsageError e s).stream = s.stream := rfl
@[simp] theorem raiseUsageError_resets (e : UsageError) (s : State) :
    (raiseUsageError e s).resets = s.resets := rfl
@[simp] theorem raiseUsageError_responses (e : UsageError) (s : State) :
    (raiseUsageError e s).responses = s.responses ++ [.err e.code] := rfl
@[simp] theorem raiseUsageError_freeCtr (e : UsageError) (s : State) :
    (raiseUsageError e s).freeCtr = s.freeCtr := rfl

@[simp] theorem beginSession_lc (s : State) :
    (beginSession s).lc = .fresh := rfl
@[simp] theorem beginSession_acc (s : State) :
    (beginSession s).acc = initialAcc := rfl
@[simp] theorem beginSession_buf (s : State) :
    (beginSession s).buf = [] := rfl
@[simp] theorem beginSession_count (s : State) :
    (beginSession s).count = 0 := rfl
@[simp] theorem beginSession_digest (s : State) :
    (beginSession s).digest = Config.freeDigest s.freeCtr := rfl
@[simp] theorem beginSession_err (s : State) :
    (beginSession s).err = s.err := rfl
@[simp] theorem beginSession_ecode (s : State) :
    (beginSession s).ecode = s.ecode := rfl
@[simp] theorem beginSession_stream (s : State) :
    (beginSession s).stream = s.stream := rfl
@[simp] theorem beginSession_resets (s : State) :
    (beginSession s).resets = s.resets := rfl
@[simp] theorem beginSession_responses (s : State) :
    (beginSession s).responses = s.responses := rfl
@[simp] theorem beginSession_freeCtr (s : State) :
    (beginSession s).freeCtr = s.freeCtr + 1 := rfl

@[simp] theorem finishSession_lc {n : Nat} (tail : Vector Byte n) (hn : n < 64) (s : State) :
    (finishSession tail hn s).lc = .finalized := rfl
@[simp] theorem finishSession_acc {n : Nat} (tail : Vector Byte n) (hn : n < 64) (s : State) :
    (finishSession tail hn s).acc = (pad tail hn s.count).foldl compress s.acc := rfl
@[simp] theorem finishSession_buf {n : Nat} (tail : Vector Byte n) (hn : n < 64) (s : State) :
    (finishSession tail hn s).buf = [] := rfl
@[simp] theorem finishSession_count {n : Nat} (tail : Vector Byte n) (hn : n < 64) (s : State) :
    (finishSession tail hn s).count = s.count := rfl
@[simp] theorem finishSession_digest {n : Nat} (tail : Vector Byte n) (hn : n < 64) (s : State) :
    (finishSession tail hn s).digest = serializeDigest ((pad tail hn s.count).foldl compress s.acc) := rfl
@[simp] theorem finishSession_err {n : Nat} (tail : Vector Byte n) (hn : n < 64) (s : State) :
    (finishSession tail hn s).err = s.err := rfl
@[simp] theorem finishSession_ecode {n : Nat} (tail : Vector Byte n) (hn : n < 64) (s : State) :
    (finishSession tail hn s).ecode = s.ecode := rfl
@[simp] theorem finishSession_stream {n : Nat} (tail : Vector Byte n) (hn : n < 64) (s : State) :
    (finishSession tail hn s).stream = s.stream := rfl
@[simp] theorem finishSession_resets {n : Nat} (tail : Vector Byte n) (hn : n < 64) (s : State) :
    (finishSession tail hn s).resets = s.resets := rfl
@[simp] theorem finishSession_responses {n : Nat} (tail : Vector Byte n) (hn : n < 64) (s : State) :
    (finishSession tail hn s).responses = s.responses := rfl
@[simp] theorem finishSession_freeCtr {n : Nat} (tail : Vector Byte n) (hn : n < 64) (s : State) :
    (finishSession tail hn s).freeCtr = s.freeCtr := rfl

@[simp] theorem resetEvent_lc (seg : List Byte) (later : List (List Byte)) (s : State) :
    (resetEvent seg later s).lc = .idle := rfl
@[simp] theorem resetEvent_acc (seg : List Byte) (later : List (List Byte)) (s : State) :
    (resetEvent seg later s).acc = ⟨0, 0, 0, 0⟩ := rfl
@[simp] theorem resetEvent_buf (seg : List Byte) (later : List (List Byte)) (s : State) :
    (resetEvent seg later s).buf = [] := rfl
@[simp] theorem resetEvent_count (seg : List Byte) (later : List (List Byte)) (s : State) :
    (resetEvent seg later s).count = 0 := rfl
@[simp] theorem resetEvent_digest (seg : List Byte) (later : List (List Byte)) (s : State) :
    (resetEvent seg later s).digest = Vector.replicate 16 0 := rfl
@[simp] theorem resetEvent_err (seg : List Byte) (later : List (List Byte)) (s : State) :
    (resetEvent seg later s).err = false := rfl
@[simp] theorem resetEvent_ecode (seg : List Byte) (later : List (List Byte)) (s : State) :
    (resetEvent seg later s).ecode = 0 := rfl
@[simp] theorem resetEvent_stream (seg : List Byte) (later : List (List Byte)) (s : State) :
    (resetEvent seg later s).stream = seg := rfl
@[simp] theorem resetEvent_resets (seg : List Byte) (later : List (List Byte)) (s : State) :
    (resetEvent seg later s).resets = later := rfl
@[simp] theorem resetEvent_responses (seg : List Byte) (later : List (List Byte)) (s : State) :
    (resetEvent seg later s).responses = s.responses := rfl
@[simp] theorem resetEvent_freeCtr (seg : List Byte) (later : List (List Byte)) (s : State) :
    (resetEvent seg later s).freeCtr = s.freeCtr := rfl

/-- STATUS and fill depend on their own fields only. -/
theorem State.status_congr (s t : State) (hl : s.lc = t.lc) (he : s.err = t.err) (hc : s.ecode = t.ecode) :
    s.status = t.status := by
  simp [State.status, hl, he, hc]

theorem State.fill_congr (s t : State) (h : s.count = t.count) : s.fill = t.fill := by
  simp [State.fill, h]

/-- R29: fill is COUNT modulo 64. -/
theorem State.fill_toNat (s : State) : s.fill.toNat = s.count.toNat % 64 := by
  simp [State.fill]

theorem State.fill_lt (s : State) : s.fill.toNat < 64 := s.fill.isLt

end Sys2Proof.Machine
end

