-- ==== Sys2Proof/Laws/Ops.lean ====
section
/-! SUPPORT. For each shared operation one lemma that says everything it can do. -/

namespace Sys2Proof.Machine

open Sys2Proof.Safety

/-- A rejection is the state R203 writes out. -/
theorem raiseUsageError_eq_rejectedWith (e : UsageError) (s : State) :
    raiseUsageError e s = rejectedWith e.code s := rfl

/-- `perform` rejects by the legality table or runs the command's rule. -/
theorem perform_cases (i : Instr) (s : State) (rule : State → StepResult) :
    (∃ e, legality i s.lc = some e ∧ perform i s rule = .next (raiseUsageError e s)) ∨
    (legality i s.lc = none ∧ perform i s rule = rule s) := by
  cases h : legality i s.lc with
  | none => exact .inr ⟨rfl, by simp [perform, h]⟩
  | some e => exact .inl ⟨e, rfl, by simp [perform, h]⟩

theorem perform_of_legal {i : Instr} {s : State} (rule : State → StepResult) (h : legality i s.lc = none) :
    perform i s rule = rule s := by
  simp [perform, h]

theorem perform_of_error {i : Instr} {s : State} {e : UsageError} (rule : State → StepResult)
    (h : legality i s.lc = some e) : perform i s rule = .next (raiseUsageError e s) := by
  simp [perform, h]

/-- UPDATE and FINAL are performed in an open session. -/
theorem legality_update_open {s : State} (h : SessionOpen s) (p : List Byte) : legality (.update p) s.lc = none := by
  rcases h with h | h <;> simp [h, legality]

theorem legality_final_open {s : State} (h : SessionOpen s) : legality .final s.lc = none := by
  rcases h with h | h <;> simp [h, legality]

/-- UPDATE and FINAL are performed in no other state. -/
theorem open_of_legal_update {s : State} {p : List Byte} (h : legality (.update p) s.lc = none) : SessionOpen s := by
  unfold SessionOpen
  cases hc : s.lc <;> simp_all [legality]

theorem open_of_legal_final {s : State} (h : legality .final s.lc = none) : SessionOpen s := by
  unfold SessionOpen
  cases hc : s.lc <;> simp_all [legality]

/-- RDDIGEST is performed in Finalized only. -/
theorem finalized_of_legal_rddigest {s : State} (h : legality .rddigest s.lc = none) : s.lc = .finalized := by
  cases hc : s.lc <;> simp_all [legality]

/-- ABSORB either stores the byte or completes a block. -/
theorem absorb_cases {v : Byte} {s t : State} (h : absorb v s = some t) :
    ((s.count + 1).extractLsb' 0 6 ≠ 0 ∧
      t = { s with buf := s.buf.writeByte s.fill v, count := s.count + 1 }) ∨
    ((s.count + 1).extractLsb' 0 6 = 0 ∧ ∃ blk, (s.buf.writeByte s.fill v).readPrefix 64 = some blk ∧
      t = { s with buf := Memory.noValues, count := s.count + 1, acc := compress s.acc blk }) := by
  simp only [absorb] at h
  split at h
  · rename_i h0
    split at h
    · rename_i blk hb
      exact .inr ⟨h0, blk, hb, (Option.some.inj h).symm⟩
    · cases h
  · rename_i h0
    exact .inl ⟨h0, (Option.some.inj h).symm⟩

/-- ABSORB of a byte that completes no block. -/
theorem absorb_store {v : Byte} {s : State} (h : (s.count + 1).extractLsb' 0 6 ≠ 0) :
    absorb v s = some { s with buf := s.buf.writeByte s.fill v, count := s.count + 1 } := by
  unfold absorb
  exact if_neg h

/-- ABSORB of the byte that completes a block. -/
theorem absorb_block {v : Byte} {s : State} {blk : Block} (h : (s.count + 1).extractLsb' 0 6 = 0)
    (hb : (s.buf.writeByte s.fill v).readPrefix 64 = some blk) :
    absorb v s =
      some { s with buf := Memory.noValues, count := s.count + 1, acc := compress s.acc blk } := by
  unfold absorb
  simp only [if_pos h, hb]

/-- ABSORB stops only where the completed block has an offset that holds no value. -/
theorem absorb_none {v : Byte} {s : State} (h : (s.count + 1).extractLsb' 0 6 = 0)
    (hb : (s.buf.writeByte s.fill v).readPrefix 64 = none) : absorb v s = none := by
  unfold absorb
  simp only [if_pos h, hb]

/-- What ABSORB never changes, and COUNT. -/
theorem absorb_frame {v : Byte} {s t : State} (h : absorb v s = some t) :
    t.lc = s.lc ∧ t.digest = s.digest ∧ t.err = s.err ∧ t.ecode = s.ecode ∧ t.stream = s.stream ∧
    t.resets = s.resets ∧ t.responses = s.responses ∧ t.freeCtr = s.freeCtr ∧ t.count = s.count + 1 := by
  rcases absorb_cases h with ⟨-, rfl⟩ | ⟨-, blk, -, rfl⟩ <;> simp

/-- What UPDATE's loop never changes, and COUNT. -/
theorem absorbAll_frame {p : List Byte} {s t : State} (h : absorbAll p s = some t) :
    t.lc = s.lc ∧ t.digest = s.digest ∧ t.err = s.err ∧ t.ecode = s.ecode ∧ t.stream = s.stream ∧
    t.resets = s.resets ∧ t.responses = s.responses ∧ t.freeCtr = s.freeCtr ∧
    t.count = s.count + BitVec.ofNat 64 p.length := by
  induction p generalizing s with
  | nil =>
    obtain rfl := Option.some.inj h
    simp
  | cons v p ih =>
    simp only [absorbAll] at h
    split at h
    · rename_i u hu
      obtain ⟨h1, h2, h3, h4, h5, h6, h7, h8, h9⟩ := ih h
      obtain ⟨g1, g2, g3, g4, g5, g6, g7, g8, g9⟩ := absorb_frame hu
      refine ⟨h1.trans g1, h2.trans g2, h3.trans g3, h4.trans g4, h5.trans g5, h6.trans g6, h7.trans g7,
        h8.trans g8, ?_⟩
      rw [h9, g9, List.length_cons, BitVec.ofNat_add]
      rw [BitVec.add_assoc, BitVec.add_comm (BitVec.ofNat 64 p.length)]
      rfl
    · cases h

/-- UPDATE's loop over a concatenation. -/
theorem absorbAll_append (p q : List Byte) (s : State) :
    absorbAll (p ++ q) s = (absorbAll p s).bind (absorbAll q) := by
  induction p generalizing s with
  | nil => rfl
  | cons v p ih =>
    simp only [List.cons_append, absorbAll]
    cases absorb v s with
    | none => rfl
    | some t => exact ih t

/-- fill after one more byte. -/
theorem fill_succ (s : State) (c : Count) (h : c = s.count + 1) :
    (c.extractLsb' 0 6).toNat = (s.fill.toNat + 1) % 64 := by
  subst h
  simp only [State.fill, BitVec.extractLsb'_toNat, BitVec.toNat_add, Nat.shiftRight_zero]
  simp

/-- ABSORB runs in every state whose buffer holds exactly fill bytes, and keeps that. -/
theorem absorb_of_bufHoldsFill {s : State} (h : BufHoldsFill s) (v : Byte) :
    ∃ t, absorb v s = some t ∧ BufHoldsFill t ∧
      (s.fill.toNat < 63 → t.acc = s.acc ∧ t.buf = s.buf ++ [(s.fill.toNat, v)]) ∧
      (s.fill.toNat = 63 → t.acc = compress s.acc (blockOfList (bufferedBytes s ++ [v])) ∧ t.buf = []) := by
  have hf := s.fill_lt
  have hk : ((s.count + 1).extractLsb' 0 6).toNat = (s.fill.toNat + 1) % 64 := fill_succ s _ rfl
  have hw : s.buf.writeByte s.fill v = s.buf ++ [(s.fill.toNat, v)] := Memory.writeCell_range s.buf s.fill.toNat v h
  have hr : (s.buf.writeByte s.fill v).map Prod.fst = List.range (s.fill.toNat + 1) := by
    rw [hw, List.map_append, h, List.range_succ]; rfl
  by_cases h63 : s.fill.toNat = 63
  · have h0 : (s.count + 1).extractLsb' 0 6 = 0 := by
      apply BitVec.eq_of_toNat_eq; rw [hk, h63]; rfl
    rw [h63] at hr
    obtain ⟨blk, hb, hl⟩ := Memory.readPrefix_range _ 64 hr
    refine ⟨{ s with buf := Memory.noValues, count := s.count + 1, acc := compress s.acc blk }, ?_, ?_, ?_, ?_⟩
    · exact absorb_block h0 hb
    · show Memory.noValues.map Prod.fst = List.range ((s.count + 1).extractLsb' 0 6).toNat
      rw [hk, h63]; rfl
    · omega
    · intro _
      refine ⟨?_, rfl⟩
      have : blk = blockOfList (bufferedBytes s ++ [v]) := by
        have hl' : blk.toList = bufferedBytes s ++ [v] := by rw [hl, hw, List.map_append]; rfl
        ext i hi
        simp only [blockOfList, Vector.getElem_ofFn, ← hl']
        simp [List.getD, hi]
      simp [this]
  · have h0 : (s.count + 1).extractLsb' 0 6 ≠ 0 := by
      intro hc
      rw [hc] at hk
      simp at hk
      omega
    refine ⟨{ s with buf := s.buf.writeByte s.fill v, count := s.count + 1 }, ?_, ?_, ?_, ?_⟩
    · exact absorb_store h0
    · show (s.buf.writeByte s.fill v).map Prod.fst = List.range ((s.count + 1).extractLsb' 0 6).toNat
      rw [hr, hk, Nat.mod_eq_of_lt (by omega)]
    · intro _
      exact ⟨rfl, hw⟩
    · exact fun h => absurd h h63

/-- UPDATE's loop runs in every state whose buffer holds exactly fill bytes, and keeps that. -/
theorem absorbAll_of_bufHoldsFill {s : State} (h : BufHoldsFill s) (p : List Byte) :
    ∃ t, absorbAll p s = some t ∧ BufHoldsFill t := by
  induction p generalizing s with
  | nil => exact ⟨s, rfl, h⟩
  | cons v p ih =>
    obtain ⟨u, hu, hb, -⟩ := absorb_of_bufHoldsFill h v
    obtain ⟨t, ht, hbt⟩ := ih hb
    exact ⟨t, by simp [absorbAll, hu, ht], hbt⟩

/-- Waiting for bytes: a reset event lands, or the engine has no step. -/
theorem waitForBytes_cases (s : State) :
    (∃ seg later, s.resets = seg :: later ∧ waitForBytes s = .next (resetEvent seg later s)) ∨
    (s.resets = [] ∧ s.stream = [] ∧ waitForBytes s = .fault .noFrame) ∨
    (s.resets = [] ∧ s.stream ≠ [] ∧ waitForBytes s = .fault .incompleteFrame) := by
  cases hr : s.resets with
  | cons seg later => exact .inl ⟨seg, later, rfl, by simp [waitForBytes, hr]⟩
  | nil =>
    cases hs : s.stream with
    | nil => exact .inr (.inl ⟨rfl, rfl, by simp [waitForBytes, hr, hs]⟩)
    | cons b bs => exact .inr (.inr ⟨rfl, by simp, by simp [waitForBytes, hr, hs]⟩)

end Sys2Proof.Machine
end

