-- ==== Sys2Proof/Laws/Exec.lean ====
section
/-! SUPPORT. What a command and a step can do, said once: the later lemmas cite these and unfold neither. -/

namespace Sys2Proof.Machine

open Sys2Proof.Safety

/-- INIT always begins a session. -/
theorem exec_init (s : State) : exec .init s = .next ((beginSession s).respond .ok) := rfl

/-- RDSTATUS always answers STATUS. -/
theorem exec_rdstatus (s : State) : exec .rdstatus s = .next (s.respond (.okStatus s.status)) := rfl

/-- UPDATE in an open session. -/
theorem exec_update_open {s : State} (h : SessionOpen s) (p : List Byte) :
    exec (.update p) s = match absorbAll p s with
      | some t => .next ((t.setLc .accumulating).respond .ok)
      | none => .fault .noValueRead := by
  show execUpdate p s = _
  unfold execUpdate
  exact (perform_of_legal _ (legality_update_open h p)).trans rfl

/-- FINAL in an open session. -/
theorem exec_final_open {s : State} (h : SessionOpen s) :
    exec .final s = match s.buf.readPrefix s.fill.toNat with
      | some tail => .next ((finishSession tail s.fill.isLt s).respond
          (.okDigest (finishSession tail s.fill.isLt s).digest))
      | none => .fault .noValueRead := by
  show execFinal s = _
  unfold execFinal
  exact (perform_of_legal _ (legality_final_open h)).trans rfl

/-- RDDIGEST in Finalized. -/
theorem exec_rddigest_finalized {s : State} (h : s.lc = .finalized) :
    exec .rddigest s = .next (s.respond (.okDigest s.digest)) := by
  simp [exec, execRddigest, perform, h, legality]

/-- A command the legality table turns away. -/
theorem exec_of_error {i : Instr} {s : State} {e : UsageError} (h : legality i s.lc = some e) :
    exec i s = .next (raiseUsageError e s) := by
  cases i with
  | init => cases h
  | update p => simp [exec, execUpdate, perform_of_error _ h]
  | final => simp [exec, execFinal, perform_of_error _ h]
  | rdstatus => cases h
  | rddigest => simp [exec, execRddigest, perform_of_error _ h]

/-- Everything a command can do when it answers a next state. -/
theorem exec_cases {i : Instr} {s t : State} (h : exec i s = .next t) :
    (∃ e, legality i s.lc = some e ∧ t = raiseUsageError e s) ∨
    (i = .init ∧ t = (beginSession s).respond .ok) ∨
    (∃ p u, i = .update p ∧ SessionOpen s ∧ absorbAll p s = some u ∧ t = (u.setLc .accumulating).respond .ok) ∨
    (∃ tail, i = .final ∧ SessionOpen s ∧ s.buf.readPrefix s.fill.toNat = some tail ∧
      t = (finishSession tail s.fill.isLt s).respond (.okDigest (finishSession tail s.fill.isLt s).digest)) ∨
    (i = .rdstatus ∧ t = s.respond (.okStatus s.status)) ∨
    (i = .rddigest ∧ s.lc = .finalized ∧ t = s.respond (.okDigest s.digest)) := by
  cases hl : legality i s.lc with
  | some e =>
    rw [exec_of_error hl] at h
    exact .inl ⟨e, rfl, by injection h with h; exact h.symm⟩
  | none =>
    refine .inr ?_
    cases i with
    | init =>
      rw [exec_init] at h
      injection h with h
      exact .inl ⟨rfl, h.symm⟩
    | update p =>
      have ho : SessionOpen s := open_of_legal_update hl
      rw [exec_update_open ho] at h
      split at h
      · rename_i u hu
        injection h with h
        exact .inr (.inl ⟨p, u, rfl, ho, hu, h.symm⟩)
      · cases h
    | final =>
      have ho : SessionOpen s := open_of_legal_final hl
      rw [exec_final_open ho] at h
      split at h
      · rename_i tail ht
        injection h with h
        exact .inr (.inr (.inl ⟨tail, rfl, ho, ht, h.symm⟩))
      · cases h
    | rdstatus =>
      rw [exec_rdstatus] at h
      injection h with h
      exact .inr (.inr (.inr (.inl ⟨rfl, h.symm⟩)))
    | rddigest =>
      have hf : s.lc = .finalized := finalized_of_legal_rddigest hl
      rw [exec_rddigest_finalized hf] at h
      injection h with h
      exact .inr (.inr (.inr (.inr ⟨rfl, hf, h.symm⟩)))

/-- A command never answers a refusal, and its only fault is the read of `⊥`. -/
theorem exec_stops {i : Instr} {s : State} :
    (∃ t, exec i s = .next t) ∨ exec i s = .fault .noValueRead := by
  cases hl : legality i s.lc with
  | some e => exact .inl ⟨_, exec_of_error hl⟩
  | none =>
    cases i with
    | init => exact .inl ⟨_, exec_init s⟩
    | update p =>
      have ho : SessionOpen s := open_of_legal_update hl
      rw [exec_update_open ho]
      cases absorbAll p s with
      | some u => exact .inl ⟨_, rfl⟩
      | none => exact .inr rfl
    | final =>
      have ho : SessionOpen s := open_of_legal_final hl
      rw [exec_final_open ho]
      cases s.buf.readPrefix s.fill.toNat with
      | some u => exact .inl ⟨_, rfl⟩
      | none => exact .inr rfl
    | rdstatus => exact .inl ⟨_, exec_rdstatus s⟩
    | rddigest =>
      have hf : s.lc = .finalized := finalized_of_legal_rddigest hl
      exact .inl ⟨_, exec_rddigest_finalized hf⟩

/-- Everything a step can do when it answers a next state. -/
theorem step_cases {s t : State} (h : step s = .next t) :
    (∃ i rest, decodeFrame s.stream = .command i rest ∧ exec i (s.advance rest) = .next t) ∨
    (∃ b rest, decodeFrame s.stream = .illegal b rest ∧ t = raiseUsageError .illegalCommand (s.advance rest)) ∨
    (∃ seg later, decodeFrame s.stream = .incomplete ∧ s.resets = seg :: later ∧ t = resetEvent seg later s) := by
  cases hd : decodeFrame s.stream with
  | command i rest =>
    refine .inl ⟨i, rest, rfl, ?_⟩
    simpa [step, hd] using h
  | illegal b rest =>
    simp only [step, hd, execIllegal] at h
    injection h with h
    exact .inr (.inl ⟨b, rest, rfl, h.symm⟩)
  | incomplete =>
    simp only [step, hd] at h
    rcases waitForBytes_cases s with ⟨seg, later, hr, hw⟩ | ⟨-, -, hw⟩ | ⟨-, -, hw⟩
    · rw [hw] at h
      injection h with h
      exact .inr (.inr ⟨seg, later, rfl, hr, h.symm⟩)
    · rw [hw] at h; cases h
    · rw [hw] at h; cases h

end Sys2Proof.Machine
end

