-- ==== Sys2Proof/Laws/PerInstr.lean ====
section
/-! SUPPORT. The per-instruction family FrameLength: a command's frame begins with its CMD byte and has the length the
command map gives it (spec/30_encoding.md R74). -/

namespace Sys2Proof.Laws.FrameLength

/-- R74 of one command. -/
def Statement (i : Instr) : Prop :=
  (encode i).length = i.frameLength ∧ (encode i).head? = some i.cmd

theorem init : Statement .init := ⟨rfl, rfl⟩

theorem update (payload : List Byte) : Statement (.update payload) := by
  constructor
  · simp only [encode, Instr.frameLength, List.length_cons, List.length_append, Vector.length_toList]
    omega
  · rfl

theorem final : Statement .final := ⟨rfl, rfl⟩

theorem rdstatus : Statement .rdstatus := ⟨rfl, rfl⟩

theorem rddigest : Statement .rddigest := ⟨rfl, rfl⟩

end Sys2Proof.Laws.FrameLength
end

