-- ==== Sys2Proof/Tests/Slice0.lean ====
section
/-! SUPPORT. The model's own tests.  Expected results come from the spec's vectors (spec/95_test_vectors.md) and from the
examples of the rules; each test names its source.  The witnesses at the end meet the hypotheses of the statements. -/

namespace Sys2Proof.Tests

open Sys2Proof.Machine Sys2Proof.Safety

/-! ### Helpers -/

/-- Consecutive cells from an offset. -/
def cellsFrom : Nat → List Byte → Memory
  | _, [] => []
  | k, b :: bs => (k, b) :: cellsFrom (k + 1) bs

/-- An open session that has absorbed `bs` (fewer than 64 bytes) and no complete block. -/
def absorbed (bs : List Byte) : State :=
  { State.reset with
    lc := .accumulating
    acc := initialAcc
    count := BitVec.ofNat 64 bs.length
    buf := cellsFrom 0 bs }

/-- V-KAT-1. -/
def digestOfEmpty : Digest :=
  #v[0xd4, 0x1d, 0x8c, 0xd9, 0x8f, 0x00, 0xb2, 0x04,
     0xe9, 0x80, 0x09, 0x98, 0xec, 0xf8, 0x42, 0x7e]

/-- V-KAT-3. -/
def digestOfAbc : Digest :=
  #v[0x90, 0x01, 0x50, 0x98, 0x3c, 0xd2, 0x4f, 0xb0,
     0xd6, 0x96, 0x3f, 0x7d, 0x28, 0xe1, 0x7f, 0x72]

/-- V-DIG-5, the message of 56 bytes 0x61. -/
def digestOf56 : Digest :=
  #v[0x3b, 0x0c, 0x8a, 0xc7, 0x03, 0xf8, 0x28, 0xb0,
     0x4c, 0x6c, 0x19, 0x70, 0x06, 0xd1, 0x72, 0x18]

/-- A finalized session of the empty message (V-KAT-1). -/
def finalizedEmpty : State :=
  { State.reset with
    lc := .finalized
    acc := ⟨0xD98C1DD4, 0x04B2008F, 0x980980E9, 0x7E42F8EC⟩
    digest := digestOfEmpty }

/-- The state after a step, where there is one. -/
def after? : StepResult → Option State
  | .next t => some t
  | .fault _ => none
  | .refused _ => none

/-- The bytes of "abc". -/
def abc : List Byte := [0x61, 0x62, 0x63]

/-- The padded block of "abc" (95_test_vectors.md section 5). -/
def abcBlock : Block := blockOfList (abc ++ [0x80] ++ List.replicate 52 0 ++ [0x18] ++ List.replicate 7 0)

/-! ### WellFormed: the ill-formed term its one check refuses -/

theorem test_wellFormed_refuses_a_long_payload : (Instr.update (List.replicate (2 ^ 32) 0)).wellFormed = false := by
  simp only [Instr.wellFormed, List.length_replicate]
  decide

theorem test_wellFormed_accepts_the_longest_payload :
    (Instr.update (List.replicate (2 ^ 32 - 1) 0)).wellFormed = true := by
  simp only [Instr.wellFormed, List.length_replicate]
  decide

/-! ### Decoding, words written out from R71, R73 and R74 -/

theorem test_decode_init : decodeFrame [0b00000001] = .command .init [] := by decide
theorem test_decode_final : decodeFrame [0b00000011, 0xAA] = .command .final [0xAA] := by decide
theorem test_decode_rdstatus : decodeFrame [0b00000100] = .command .rdstatus [] := by decide
theorem test_decode_rddigest : decodeFrame [0b00000101] = .command .rddigest [] := by decide
/-- P1's third frame. -/
theorem test_decode_update :
    decodeFrame [0x02, 0x02, 0x00, 0x00, 0x00, 0x62, 0x63, 0x03] = .command (.update [0x62, 0x63]) [0x03] := by decide
/-- V-LE-9 and V-LE-10. -/
theorem test_len_field_is_little_endian :
    lenField 0x38 0x00 0x00 0x00 = 56 ∧ lenField 0x00 0x01 0x00 0x00 = 256 ∧
    lenField 0x00 0x00 0x00 0x01 = 2 ^ 24 := by decide
/-- V-CMD-10 and V-CMD-11, R75. -/
theorem test_decode_illegal :
    decodeFrame [0x00, 0x01] = .illegal 0x00 [0x01] ∧ decodeFrame [0x06] = .illegal 0x06 [] ∧
    decodeFrame [0xFF] = .illegal 0xFF [] := by decide
/-- V-CMD-16. -/
theorem test_decode_incomplete :
    decodeFrame [0x02, 0x03, 0x00, 0x00, 0x00, 0x61, 0x62] = .incomplete ∧ decodeFrame [0x02, 0x03] = .incomplete ∧
    decodeFrame [] = .incomplete := by decide
/-- P1's frames. -/
theorem test_encode_update : encode (.update [0x62, 0x63]) = [0x02, 0x02, 0x00, 0x00, 0x00, 0x62, 0x63] := by decide

/-! ### Byte order, mixing, rotation, rounds (V-LE, V-F, V-ROT, V-RND, V-CMP) -/

theorem test_le32 : le32 0x61 0x62 0x63 0x80 = 0x80636261 := by decide
theorem test_le32bytes : le32bytes 0x98500190 = #v[0x90, 0x01, 0x50, 0x98] := by decide
theorem test_le64bytes : le64bytes 448 = #v[0xC0, 0x01, 0, 0, 0, 0, 0, 0] := by decide
/-- V-LE-8, R184. -/
theorem test_serialize_initial : serializeDigest initialAcc =
    #v[0x01, 0x23, 0x45, 0x67, 0x89, 0xab, 0xcd, 0xef, 0xfe, 0xdc, 0xba, 0x98, 0x76, 0x54, 0x32, 0x10] := by decide
/-- V-F-7: the truth table of each function. -/
theorem test_mixing_truth_tables :
    mixF1 0xF0F0F0F0 0xCCCCCCCC 0xAAAAAAAA = 0xCACACACA ∧ mixF2 0xF0F0F0F0 0xCCCCCCCC 0xAAAAAAAA = 0xE4E4E4E4 ∧
    mixF3 0xF0F0F0F0 0xCCCCCCCC 0xAAAAAAAA = 0x96969696 ∧ mixF4 0xF0F0F0F0 0xCCCCCCCC 0xAAAAAAAA = 0x39393939 := by decide
/-- V-ROT-2, V-ROT-6 and V-ROT-7. -/
theorem test_rotl32 :
    rotl32 0x00000001 31 = 0x80000000 ∧ rotl32 0x57CE06D8 7 = 0xE7036C2B ∧ rotl32 0xDEADBEEF 23 = 0x77EF56DF := by decide
/-- Rows 1, 18, 35 and 63 of the R157 table. -/
theorem test_round_schedule_rows :
    (tableK[(1 : Fin 64)], shiftOf 1, permOf 1) = (0xE8C7B756, 12, 1) ∧
    (tableK[(18 : Fin 64)], shiftOf 18, permOf 18) = (0x265E5A51, 14, 11) ∧
    (tableK[(35 : Fin 64)], shiftOf 35, permOf 35) = (0xFDE5380C, 23, 14) ∧
    (tableK[(63 : Fin 64)], shiftOf 63, permOf 63) = (0xEB86D391, 21, 9) := by decide +kernel
/-- V-RND, r = 0. -/
theorem test_round_zero : roundOf (wordsOf abcBlock) initialAcc 0 =
    ⟨0x10325476, 0xD6D117B4, 0xEFCDAB89, 0x98BADCFE⟩ := by decide +kernel
/-- V-RND, r = 48, a round of pass 4. -/
theorem test_round_48 : roundOf (wordsOf abcBlock) ⟨0x7F2E507B, 0x7BEB9700, 0x8FAE6399, 0x99D9679D⟩ 48 =
    ⟨0x99D9679D, 0x7B201DF8, 0x7BEB9700, 0x8FAE6399⟩ := by decide +kernel
/-- V-CMP-3. -/
theorem test_compress_ones : compress ⟨0, 0, 0, 0⟩ (Vector.replicate 64 0xFF) =
    ⟨0xE0317343, 0xA301BECB, 0xC156FA57, 0x9083016F⟩ := by decide +kernel
/-- V-CMP-5: every feed-forward sum wraps. -/
theorem test_compress_wraps :
    compress ⟨0xFFFFFFFF, 0xFFFFFFFF, 0xFFFFFFFF, 0xFFFFFFFF⟩ (Vector.replicate 64 0) =
      ⟨0xE6BC4A78, 0x6580A066, 0x341C3389, 0xB7B5AFCC⟩ := by decide +kernel
/-- V-PAD-2. -/
theorem test_pad_abc : pad #v[0x61, 0x62, 0x63] (by decide) 3 = [abcBlock] := by decide +kernel
/-- V-PAD-3 and V-PAD-4, the branch edge of R109. -/
theorem test_pad_edge :
    (pad (Vector.replicate 55 0x61) (by decide) 55).length = 1 ∧
    (pad (Vector.replicate 56 0x61) (by decide) 56).map Vector.toList =
      [List.replicate 56 0x61 ++ [0x80] ++ List.replicate 7 0,
       List.replicate 56 0 ++ [0xC0, 0x01, 0, 0, 0, 0, 0, 0]] := by decide +kernel
/-- V-PAD-8: the bit count wraps modulo 2^64. -/
theorem test_pad_bit_length_wraps : bitLength 0x2000000000000003 = 24 := by decide

/-! ### The commands, one step each -/

/-- R102's example. -/
theorem test_init_from_reset :
    (after? (exec .init State.reset)).map (fun t => (t.lc, t.count, t.acc)) =
      some (.fresh, 0, ⟨0x67452301, 0xEFCDAB89, 0x98BADCFE, 0x10325476⟩) := by decide
/-- V-CMD-15: INIT does not clear ERR. -/
theorem test_init_keeps_err :
    (after? (exec .init (rejectedWith 1 State.reset))).map State.status = some 0x0D := by decide
/-- R103's example. -/
theorem test_update_abc :
    (after? (exec (.update abc) (absorbed []))).map (fun t => (t.count, t.buf, t.acc, t.status)) =
      some (3, [(0, 0x61), (1, 0x62), (2, 0x63)], initialAcc, 0x02) := by decide
/-- P3's second UPDATE: the 64th byte compresses, the next is stored at offset 0. -/
theorem test_update_completes_a_block :
    (after? (exec (.update [0x61, 0x61]) (absorbed (List.replicate 63 0x61)))).map (fun t => (t.count, t.buf, t.acc)) =
      some (65, [(0, 0x61)], ⟨0x89D4FF56, 0x125CD962, 0x69CADE33, 0x0033E325⟩) := by decide +kernel
/-- V-KAT-3. -/
theorem test_final_abc :
    (after? (exec .final (absorbed abc))).map (fun t => (t.lc, t.count, t.buf, t.responses)) =
      some (.finalized, 3, [], [.okDigest digestOfAbc]) := by decide +kernel
/-- V-DIG-5, two padding blocks. -/
theorem test_final_two_blocks :
    (after? (exec .final (absorbed (List.replicate 56 0x61)))).map State.digest = some digestOf56 := by decide +kernel
/-- V-CMD-4: FINAL from Fresh digests the empty message. -/
theorem test_final_from_fresh :
    (after? (exec .final { absorbed [] with lc := .fresh })).map (fun t => (t.digest, t.status)) =
      some (digestOfEmpty, 0x03) := by decide +kernel
/-- V-CMD-8's last STATUS, R113's example: STATE = 3, ERR = 1, ECODE = 3. -/
theorem test_rdstatus :
    (after? (exec .rdstatus (rejectedWith 3 finalizedEmpty))).map State.responses =
      some [.err 3, .okStatus 0x1F] := by decide
/-- V-CMD-12's last response. -/
theorem test_rddigest :
    (after? (exec .rddigest finalizedEmpty)).map State.responses = some [.okDigest digestOfEmpty] := by decide
/-- V-CMD-7. -/
theorem test_rddigest_rejected :
    (after? (exec .rddigest State.reset)).map (fun t => (t.responses, t.status)) = some ([.err 5], 0x2C) := by decide

/-! ### Steps -/

/-- V-CMD-5: UPDATE "x" from reset. -/
theorem test_step_no_session :
    (after? (step (State.reset.hostSend [0x02, 0x01, 0x00, 0x00, 0x00, 0x78]))).map
      (fun t => (t.responses, t.status, t.stream)) = some ([.err 2], 0x14, []) := by decide
/-- V-CMD-10: one illegal byte, and the next byte begins the next frame. -/
theorem test_step_illegal :
    (after? (step (State.reset.hostSend [0x00, 0x01]))).map (fun t => (t.responses, t.status, t.stream)) =
      some ([.err 1], 0x0C, [0x01]) := by decide
/-- V-CMD-9 and V-CMD-12: the second error keeps the first code. -/
theorem test_first_error_wins :
    (after? (exec .final finalizedEmpty)).map State.status = some 0x27 ∧
    (after? (exec .final (rejectedWith 3 finalizedEmpty))).map State.status = some 0x1F := by decide
/-- V-CMD-16: the engine waits. -/
theorem test_step_waits :
    step (State.reset.hostSend [0x02, 0x03, 0x00, 0x00, 0x00, 0x61, 0x62]) = .fault .incompleteFrame := rfl
/-- R230: an incomplete frame is discarded by a reset event, which clears ERR. -/
theorem test_reset_event :
    (after? (step (((rejectedWith 1 (absorbed abc)).hostSend [0x02, 0x03]).hostReset.hostSend [0x04]))).map
      (fun t => (t.lc, t.status, t.stream, t.resets)) = some (.idle, 0x00, [0x04], []) := by decide
/-- A table word placed as the next frame is the next command to run. -/
theorem test_withFetchWord :
    (after? (step (State.reset.withFetchWord 8 0x02))).map (fun t => (t.responses, t.stream)) = some ([.err 2], []) ∧
    (after? (step (State.reset.withFetchWord 8 0x04))).map (fun t => (t.responses, t.stream)) =
      some ([.okStatus 0], []) := by decide

/-! ### Text -/

/-- R82: `UPDATE "a"*3 ; x`, case-insensitive. -/
theorem test_parse_repeat :
    parseLine ['u', 'p', 'd', 'a', 't', 'e', ' ', '"', 'a', '"', '*', '3', ' ', ';', ' ', 'x'] =
      some (some (.update [0x61, 0x61, 0x61])) := by decide
/-- R82: `HASH "\x41\\"`. -/
theorem test_parse_escape :
    parseLine ['H', 'A', 'S', 'H', ' ', '"', '\\', 'x', '4', '1', '\\', '\\', '"'] =
      some (some (.hash [0x41, 0x5C])) := by decide
/-- R82: `.byte 0xFF`, and an open string has no meaning. -/
theorem test_parse_byte :
    parseLine ['.', 'b', 'y', 't', 'e', ' ', '0', 'x', 'F', 'F'] = some (some (.byte 0xFF)) ∧
    parseLine ['U', 'P', 'D', 'A', 'T', 'E', ' ', '"', 'a'] = none := by decide
/-- P4: the frames of HASH "abc". -/
theorem test_assemble_hash :
    assembleLine (.hash abc) = some [0x01, 0x02, 0x03, 0x00, 0x00, 0x00, 0x61, 0x62, 0x63, 0x03] := by decide
/-- R186: the first two bytes of hash(""). -/
theorem test_hex_display : (hexDisplay finalizedEmpty.digest).take 4 = ['d', '4', '1', 'd'] := by decide

/-! ### Witnesses: states and operands that meet the statements' hypotheses -/

theorem witness_DecodingAnEncodedCommandGivesItBack : (Instr.update abc).wellFormed = true := by decide

theorem witness_DecodedFramesAreWhatTheStreamHolds :
    (∃ i rest, decodeFrame (encode (.update abc) ++ [0x00]) = .command i rest) ∧
    (∃ b rest, decodeFrame [0x06, 0x01] = .illegal b rest) := ⟨⟨_, _, rfl⟩, ⟨_, _, rfl⟩⟩

theorem witness_FrameLengthIsFoundFromTheHead :
    (∃ i rest, decodeFrame (0x02 :: 0x01 :: 0x00 :: 0x00 :: 0x00 :: [0x61, 0x03]) = .command i rest) ∧
    (0x03 : Byte) ≠ 0x02 := ⟨⟨_, _, rfl⟩, by decide⟩

theorem witness_IncompleteFrameWaits :
    let s := State.reset.hostSend [0x02, 0x01, 0x00, 0x00, 0x00]
    s.stream ≠ [] ∧ decodeFrame s.stream = .incomplete ∧ s.resets = [] ∧
      decodeFrame (s.stream ++ [0x61]) = .command (.update [0x61]) [] := by decide

theorem witness_IllegalByteIsRejectedAndConsumedAlone :
    ((0x00 : Byte) = 0x00 ∨ 0x06 ≤ (0x00 : Byte).toNat) ∧ ((0x06 : Byte) = 0x00 ∨ 0x06 ≤ (0x06 : Byte).toNat) ∧
    (State.reset.hostSend [0x06]).stream = 0x06 :: [] := by decide

theorem witness_StepRunsTheDecodedCommand :
    (Instr.update abc).wellFormed = true ∧
    (State.reset.hostSend (encode (.update abc) ++ [0x03])).stream = encode (.update abc) ++ [0x03] := by decide

theorem witness_StreamRunIsTheFoldOfItsCommands :
    let s := (absorbed []).hostSend (encodeAll [.update abc, .rdstatus] ++ [0x00])
    (∀ i ∈ [Instr.update abc, Instr.rdstatus], i.wellFormed = true) ∧
    s.stream = encodeAll [.update abc, .rdstatus] ++ [0x00] ∧
    (after? (execAll [.update abc, .rdstatus] { s with stream := [] })).isSome = true := by decide

theorem witness_LaterBytesDoNotChangeAStep :
    decodeFrame (State.reset.hostSend [0x04]).stream ≠ .incomplete ∧
    (after? (step (State.reset.hostSend [0x04]))).isSome = true := by decide

theorem witness_EmptyUpdateOnlyEntersAccumulating : SessionOpen (absorbed abc) := by decide

theorem witness_UpdateCompressesEveryCompleteBlock :
    SessionOpen (absorbed abc) ∧ BufHoldsFill (absorbed abc) ∧ State.reset.lc = .idle ∧
    finalizedEmpty.lc = .finalized := by decide

theorem witness_UpdateCompressesEveryCompleteBlock_at_the_boundary :
    SessionOpen (absorbed (List.replicate 63 0x61)) ∧ BufHoldsFill (absorbed (List.replicate 63 0x61)) := by
  decide +kernel

theorem witness_UpdateStoresAtTheFillAndNowhereElse :
    SessionOpen (absorbed abc) ∧ BufHoldsFill (absorbed abc) ∧
    (absorbed abc).count.toNat % 64 + (List.replicate 60 (0x00 : Byte)).length < 64 := by decide

theorem witness_SixtyFourthByteCompressesTheBlock :
    SessionOpen (absorbed (List.replicate 63 0x61)) ∧ BufHoldsFill (absorbed (List.replicate 63 0x61)) ∧
    (absorbed (List.replicate 63 0x61)).count.toNat % 64 = 63 := by decide +kernel

theorem witness_StreamingEquivalence :
    SessionOpen (absorbed abc) ∧ BufHoldsFill (absorbed abc) := by decide

theorem witness_FinalPadsCompressesAndLatchesTheDigest :
    SessionOpen (absorbed abc) ∧ BufHoldsFill (absorbed abc) ∧ State.reset.lc = .idle ∧
    finalizedEmpty.lc = .finalized := by decide

theorem witness_RddigestReturnsTheLatchedDigest :
    finalizedEmpty.lc = .finalized ∧ State.reset.lc ≠ .finalized := by decide

theorem witness_RejectionIsPrecise :
    State.reset.lc = .idle ∧ finalizedEmpty.lc = .finalized ∧ (absorbed abc).lc ≠ .finalized ∧
    (0x06 ≤ (0xFF : Byte).toNat) ∧ (State.reset.hostSend [0xFF, 0x01]).stream = 0xFF :: [0x01] ∧
    State.reset.err = false ∧ (rejectedWith 1 State.reset).err = true := by decide

theorem witness_EachCommandReturnsExactlyOneResponse :
    (after? (exec .rdstatus State.reset)).isSome = true ∧ (after? (exec (.update abc) (absorbed abc))).isSome = true ∧
    (after? (exec .final State.reset)).isSome = true := by decide

theorem witness_LifecycleTransitionsAreComplete :
    (after? (exec .init finalizedEmpty)).isSome = true ∧ (after? (exec (.update []) (absorbed []))).isSome = true := by
  decide

theorem witness_OnlyResetClearsTheErrorStatus :
    (after? (step ((rejectedWith 2 State.reset).hostSend [0x00]))).isSome = true ∧
    (after? (step ((rejectedWith 2 State.reset).hostSend [0x04]))).isSome = true ∧
    (after? (step (rejectedWith 2 State.reset).hostReset)).isSome = true ∧
    (rejectedWith 2 State.reset).ecode.toNat ≤ 5 := by decide

theorem witness_DigestIsImmutableOnceProduced :
    finalizedEmpty.lc = .finalized ∧
    (after? (step (finalizedEmpty.hostSend [0x05]))).map State.lc = some .finalized := by decide

theorem witness_OnlySessionCommandsChangeTheSession :
    (after? (exec .rddigest finalizedEmpty)).isSome = true := by decide

theorem witness_ResetEventDiscardsTheIncompleteFrame :
    let s := ((absorbed abc).hostSend [0x02, 0x03]).hostReset.hostSend [0x01]
    decodeFrame s.stream = .incomplete ∧ s.resets = [0x01] :: [] := by decide

theorem inv_absorbed_abc : Inv (absorbed abc) where
  buf_wf := by decide
  buf_holds := by decide
  buf_empty := by decide
  fresh_start := by decide
  digest_valid := by decide
  ecode_zero := by decide
  ecode_legal := by decide

theorem witness_StepKeepsTheInvariant :
    Inv (absorbed abc) ∧ Inv ((absorbed abc).hostSend [0x04]) ∧
    (after? (step ((absorbed abc).hostSend [0x04]))).isSome = true :=
  ⟨inv_absorbed_abc, ⟨by decide, by decide, by decide, by decide, by decide, by decide, by decide⟩, by decide⟩

theorem witness_NoValueIsNeverRead :
    decodeFrame ((absorbed abc).hostSend [0x03]).stream ≠ .incomplete ∧ (absorbed abc).hostReset.resets ≠ [] := by decide

/-- Two states that differ in a value the spec calls `⊥`: DIGEST in an open session. -/
theorem witness_UndefinedValuesAreUnobservable :
    SameDefined (absorbed abc) { absorbed abc with digest := Vector.replicate 16 0xFF } ∧
    absorbed abc ≠ { absorbed abc with digest := Vector.replicate 16 0xFF } := by
  refine ⟨?_, by decide⟩
  constructor
  all_goals first
    | rfl
    | exact fun _ => rfl
    | exact fun _ _ _ => rfl
    | exact fun h => absurd h (by decide)

theorem witness_PaddingHasOneOrTwoBlocks : 55 < 64 ∧ 55 ≤ 55 ∧ 56 < 64 ∧ ¬ 56 ≤ 55 ∧ 63 < 64 := by decide

theorem witness_LengthFieldIsTheBitLength : 0 < 64 ∧ 63 < 64 ∧ 7 < 8 := by decide

theorem witness_PaddedMessageIsWholeBlocks : 55 < 64 ∧ 119 % 64 = 55 := by decide

/-- Working registers for any accumulator and block. -/
def registersAfter (acc : Accum) (blk : Block) : Nat → Accum
  | 0 => acc
  | r + 1 => roundOf (wordsOf blk) (registersAfter acc blk r) (Fin.ofNat 64 r)

theorem witness_CompressIsSixtyFourRoundsAndFeedForward (acc : Accum) (blk : Block) :
    registersAfter acc blk 0 = acc ∧ ∀ r : Fin 64, registersAfter acc blk (r.val + 1) =
      { a := (registersAfter acc blk r.val).d
        b := (registersAfter acc blk r.val).b + rotl32 ((registersAfter acc blk r.val).a +
          mixOf r (registersAfter acc blk r.val).b (registersAfter acc blk r.val).c (registersAfter acc blk r.val).d +
          tableK[r] + (wordsOf blk)[permOf r]) (shiftOf r)
        c := (registersAfter acc blk r.val).b
        d := (registersAfter acc blk r.val).c } := by
  refine ⟨rfl, fun r => ?_⟩
  have hr : Fin.ofNat 64 r.val = r := by
    apply Fin.ext
    simp
  simp only [registersAfter, hr, roundOf]

theorem witness_MixingFunctionsBitByBit :
    31 < 32 ∧ (15 : Fin 64).val < 16 ∧ ¬ (16 : Fin 64).val < 16 ∧ (31 : Fin 64).val < 32 ∧ ¬ (32 : Fin 64).val < 32 ∧
    (47 : Fin 64).val < 48 ∧ ¬ (48 : Fin 64).val < 48 := by decide

theorem witness_RoundScheduleIsTheTable :
    (15 : Fin 64).val < 16 ∧ ¬ (16 : Fin 64).val < 16 ∧ (31 : Fin 64).val < 32 ∧ ¬ (32 : Fin 64).val < 32 ∧
    (47 : Fin 64).val < 48 ∧ ¬ (48 : Fin 64).val < 48 := by decide

theorem witness_RotationWrapsWithinTheWord : 1 ≤ 31 ∧ 31 ≤ 31 ∧ 31 < 32 := by decide

theorem witness_EachPassReadsEveryMessageWordOnce :
    (16 : Fin 64).val / 16 = (20 : Fin 64).val / 16 ∧ (16 : Fin 64).val % 4 = (20 : Fin 64).val % 4 := by decide

theorem witness_MessageWordsAreLittleEndianReadsOfBuf :
    Memory.readPrefix (cellsFrom 0 (List.replicate 64 0x61)) 64 = some (Vector.replicate 64 0x61) ∧ 15 < 16 ∧ 3 < 4 := by
  decide +kernel

theorem witness_DigestIsTheLittleEndianAccumulator : 3 < 4 := by decide

theorem witness_EnginesShareNoState :
    let sys : System ⟨2, by decide⟩ := (systemReset ⟨2, by decide⟩).set 0 (State.reset.hostSend [0x04]) |>.set 1 (State.reset.hostSend [0x05])
    (0 : Fin 2) ≠ 1 ∧ (match systemStep 0 sys with | .next _ => true | .fault _ => false | .refused _ => false) = true ∧
    (match systemStep 1 sys with | .next _ => true | .fault _ => false | .refused _ => false) = true := by decide

theorem witness_HashLineReturnsTheDigest :
    abc.length < 2 ^ 32 ∧ ∃ bs, assembleLine (.hash abc) = some bs ∧ (State.reset.hostSend (bs ++ [0x04])).stream = bs ++ [0x04] :=
  ⟨by decide, _, rfl, rfl⟩

theorem witness_DisassemblyAssemblesBack :
    (∃ i rest, decodeFrame [0x02, 0x01, 0x00, 0x00, 0x00, 0x7F, 0x01] = .command i rest) ∧
    (∃ b rest, decodeFrame [0xFF] = .illegal b rest) := ⟨⟨_, _, rfl⟩, ⟨_, _, rfl⟩⟩

theorem witness_HexDisplayShowsEachByteInOrder : 15 < 16 := by decide

end Sys2Proof.Tests
end

section
/-! PROOF. The lifecycle register under a command (spec/10_state.md R23). -/

namespace Sys2Proof.Proofs.Lifecycle

open Sys2Proof.Machine

/-- R23's table: LC after a command, from LC before it. -/
def nextLc : Instr → Lifecycle → Lifecycle
  | .init, _ => .fresh
  | .update _, .fresh => .accumulating
  | .update _, .accumulating => .accumulating
  | .update _, .idle => .idle
  | .update _, .finalized => .finalized
  | .final, .fresh => .finalized
  | .final, .accumulating => .finalized
  | .final, .idle => .idle
  | .final, .finalized => .finalized
  | .rdstatus, lc => lc
  | .rddigest, lc => lc

/-- A command the legality table turns away leaves LC where it is. -/
theorem nextLc_of_error {i : Instr} {lc : Lifecycle} {e : UsageError} (h : legality i lc = some e) :
    nextLc i lc = lc := by
  cases i with
  | init => cases h
  | update p => cases lc with
    | idle | finalized => rfl
    | fresh | accumulating => cases h
  | final => cases lc with
    | idle | finalized => rfl
    | fresh | accumulating => cases h
  | rdstatus | rddigest => rfl

/-- Only a command that finds the engine in Idle leaves it there. -/
theorem idle_of_nextLc_idle {i : Instr} {lc : Lifecycle} (h : nextLc i lc = .idle) : lc = .idle := by
  cases i with
  | init => cases h
  | update p => cases lc with
    | idle => rfl
    | fresh | accumulating | finalized => cases h
  | final => cases lc with
    | idle => rfl
    | fresh | accumulating | finalized => cases h
  | rdstatus | rddigest => exact h

/-- Every command that answers a next state moves LC by R23's table. -/
theorem exec_lc {i : Instr} {s t : State} (h : exec i s = .next t) : t.lc = nextLc i s.lc := by
  rcases exec_cases h with ⟨e, he, rfl⟩ | ⟨rfl, rfl⟩ | ⟨p, u, rfl, hopen, -, rfl⟩ |
    ⟨tail, rfl, hopen, -, rfl⟩ | ⟨rfl, rfl⟩ | ⟨rfl, -, rfl⟩
  · exact (nextLc_of_error he).symm
  · rfl
  · rcases hopen with hlc | hlc <;> simp [nextLc, hlc]
  · rcases hopen with hlc | hlc <;> simp [nextLc, hlc]
  · rfl
  · rfl

/-- Settles O21: `exec_lc` is the table, and the table reaches Idle from Idle only. -/
theorem lifecycleTransitionsAreComplete : Obligations.LifecycleTransitionsAreComplete := by
  unfold Obligations.LifecycleTransitionsAreComplete
  intro i s t h
  have hlc : t.lc = nextLc i s.lc := exec_lc h
  exact ⟨fun hidle => idle_of_nextLc_idle (hlc.symm.trans hidle), hlc⟩

end Sys2Proof.Proofs.Lifecycle
end


section
/-! PROOF. BUF is written as bytes and read as words (spec/20_memory.md R52, spec/41_compression.md R141). -/

namespace Sys2Proof.Proofs.MessageWords

open Sys2Proof.Machine
open BitVec (extractLsb'_append_eq_left extractLsb'_append_eq_right extractLsb'_append_eq_of_le)

/-- R180: `le32` is the concatenation of its bytes, the most significant first. -/
theorem le32_eq_append (b0 b1 b2 b3 : Byte) : le32 b0 b1 b2 b3 = b3 ++ b2 ++ b1 ++ b0 := by
  ext k hk
  simp only [le32]
  grind

/-- R180: byte `j` of a little-endian word is its bits `8j+7 : 8j`; the `j` bytes below it are dropped one by one. -/
theorem extractLsb'_le32 (b0 b1 b2 b3 : Byte) (j : Nat) (hj : j < 4) :
    (le32 b0 b1 b2 b3).extractLsb' (8 * j) 8 = #v[b0, b1, b2, b3][j] := by
  rw [le32_eq_append]
  obtain rfl | rfl | rfl | rfl : j = 0 ∨ j = 1 ∨ j = 2 ∨ j = 3 := by omega
  · exact extractLsb'_append_eq_right
  · exact (extractLsb'_append_eq_of_le (by decide)).trans extractLsb'_append_eq_right
  · exact (extractLsb'_append_eq_of_le (by decide)).trans <|
      (extractLsb'_append_eq_of_le (by decide)).trans extractLsb'_append_eq_right
  · exact (extractLsb'_append_eq_of_le (by decide)).trans <|
      (extractLsb'_append_eq_of_le (by decide)).trans extractLsb'_append_eq_left

/-- R141: message word `i` is the little-endian word of the block's bytes `4i` to `4i + 3`. -/
theorem wordsOf_getElem (blk : Block) (i : Nat) (hi : i < 16) :
    (wordsOf blk)[i] = le32 blk[4 * i] blk[4 * i + 1] blk[4 * i + 2] blk[4 * i + 3] := by
  simp [wordsOf]

/-- R52: byte `j` of message word `i` is the block's byte `4i + j`. -/
theorem extractLsb'_wordsOf (blk : Block) (i j : Nat) (hi : i < 16) (hj : j < 4) :
    (wordsOf blk)[i].extractLsb' (8 * j) 8 = blk[4 * i + j] := by
  rw [wordsOf_getElem, extractLsb'_le32 _ _ _ _ j hj]
  obtain rfl | rfl | rfl | rfl : j = 0 ∨ j = 1 ∨ j = 2 ∨ j = 3 := by omega
  all_goals rfl

/-- Settles O39: a full read of BUF has each byte at its offset, and `extractLsb'_wordsOf` finds that byte in its word. -/
theorem messageWordsAreLittleEndianReadsOfBuf : Obligations.MessageWordsAreLittleEndianReadsOfBuf := by
  unfold Obligations.MessageWordsAreLittleEndianReadsOfBuf
  intro m blk hread i j hi hj
  have hbyte : m.readByte (4 * i + j) = some blk[4 * i + j] :=
    (Memory.readPrefix_eq_some m 64 blk).mp hread (4 * i + j) (by omega)
  rw [hbyte, extractLsb'_wordsOf blk i j hi hj]

end Sys2Proof.Proofs.MessageWords
end

section
/-! PROOF. The engines of a system do not interfere (spec/20_memory.md R64, spec/60_exceptions.md R213). -/

namespace Sys2Proof.Proofs.Engines

open Sys2Proof.Machine

variable {n : Config.NumEngines}

/-- A step of a system is one engine's own step, written back in that engine's place. -/
theorem systemStep_eq_next_iff {i : Fin n.val} {sys sys' : System n} :
    systemStep i sys = .next sys' ↔ ∃ t, step sys[i] = .next t ∧ sys' = sys.set i t := by
  unfold systemStep
  cases step sys[i] <;> simp [eq_comm]

/-- Writing one engine leaves every other as it was. -/
theorem getElem_set_of_ne {i j : Fin n.val} (h : j ≠ i) (sys : System n) (t : State) :
    (sys.set i t)[j] = sys[j] :=
  Vector.getElem_set_ne i.isLt j.isLt fun hij => h (Fin.ext hij.symm)

/-- Steps of two distinct engines may be taken in either order. -/
theorem systemStep_comm {i j : Fin n.val} {sys si sj : System n} (hij : i ≠ j)
    (hi : systemStep i sys = .next si) (hj : systemStep j sys = .next sj) :
    systemStep j si = systemStep i sj := by
  obtain ⟨ti, hti, rfl⟩ := systemStep_eq_next_iff.mp hi
  obtain ⟨tj, htj, rfl⟩ := systemStep_eq_next_iff.mp hj
  have hleft : systemStep j (sys.set i ti) = .next ((sys.set i ti).set j tj) :=
    systemStep_eq_next_iff.mpr ⟨tj, by rw [getElem_set_of_ne hij.symm, htj], rfl⟩
  have hright : systemStep i (sys.set j tj) = .next ((sys.set j tj).set i ti) :=
    systemStep_eq_next_iff.mpr ⟨ti, by rw [getElem_set_of_ne hij, hti], rfl⟩
  rw [hleft, hright, Vector.set_comm _ _ fun h => hij (Fin.ext h)]

/-- Settles O43: a step of one engine is a write at its own place, and writes at distinct places commute. -/
theorem enginesShareNoState : Obligations.EnginesShareNoState := by
  unfold Obligations.EnginesShareNoState
  refine ⟨fun n i sys sys' h => ?_, fun n i j sys si sj hij hi hj => systemStep_comm hij hi hj, fun n i => ?_⟩
  · obtain ⟨t, ht, rfl⟩ := systemStep_eq_next_iff.mp h
    refine ⟨?_, fun j hj => getElem_set_of_ne hj sys t⟩
    simpa using ht
  · simp [systemReset]

end Sys2Proof.Proofs.Engines
end

section
/-! PROOF. What the decoder finds at the head of the command stream (spec/30_encoding.md R71 to R79). -/

namespace Sys2Proof.Proofs.Decoder

open Sys2Proof.Machine
open Sys2Proof.Proofs.MessageWords (le32_eq_append)

/-! ### The LEN field -/

/-- R73: LEN is the unsigned little-endian value of its four bytes. -/
theorem lenField_eq_sum (f1 f2 f3 f4 : Byte) :
    lenField f1 f2 f3 f4 = f1.toNat + 2 ^ 8 * f2.toNat + 2 ^ 16 * f3.toNat + 2 ^ 24 * f4.toNat := by
  have h1 := f1.isLt
  have h2 := f2.isLt
  have h3 := f3.isLt
  simp only [lenField, le32_eq_append, BitVec.toNat_append]
  rw [← Nat.shiftLeft_add_eq_or_of_lt h3, ← Nat.shiftLeft_add_eq_or_of_lt h2, ← Nat.shiftLeft_add_eq_or_of_lt h1]
  simp only [Nat.shiftLeft_eq]
  omega

/-- R180, R181: reading back the four bytes of a serialized word gives the word. -/
theorem le32_le32bytes (w : Word) :
    le32 (w.extractLsb' 0 8) (w.extractLsb' 8 8) (w.extractLsb' 16 8) (w.extractLsb' 24 8) = w := by
  rw [le32_eq_append]
  ext k hk
  grind

/-- R73, R181: a count that fits LEN is read back from the bytes it is serialized to. -/
theorem lenField_ofNat {n : Nat} (h : n < 2 ^ 32) :
    lenField ((BitVec.ofNat 32 n).extractLsb' 0 8) ((BitVec.ofNat 32 n).extractLsb' 8 8)
      ((BitVec.ofNat 32 n).extractLsb' 16 8) ((BitVec.ofNat 32 n).extractLsb' 24 8) = n := by
  rw [lenField, le32_le32bytes, BitVec.toNat_ofNat, Nat.mod_eq_of_lt h]

/-! ### An UPDATE frame behind its CMD byte -/

/-- R71: with the payload complete, the frame ends after LEN bytes. -/
theorem decodeUpdate_of_le {f1 f2 f3 f4 : Byte} {body : List Byte} (h : lenField f1 f2 f3 f4 ≤ body.length) :
    decodeUpdate (f1 :: f2 :: f3 :: f4 :: body) =
      .command (.update (body.take (lenField f1 f2 f3 f4))) (body.drop (lenField f1 f2 f3 f4)) :=
  if_pos h

/-- R78: with payload bytes missing, the frame is incomplete. -/
theorem decodeUpdate_of_lt {f1 f2 f3 f4 : Byte} {body : List Byte} (h : body.length < lenField f1 f2 f3 f4) :
    decodeUpdate (f1 :: f2 :: f3 :: f4 :: body) = .incomplete :=
  if_neg (Nat.not_le.mpr h)

/-- R78: behind its CMD byte an UPDATE frame is incomplete exactly while LEN bytes or payload bytes are missing. -/
theorem decodeUpdate_eq_incomplete_iff (r : List Byte) :
    decodeUpdate r = .incomplete ↔ r.length < 4 ∨
      ∃ f1 f2 f3 f4 body, r = f1 :: f2 :: f3 :: f4 :: body ∧ body.length < lenField f1 f2 f3 f4 := by
  match r with
  | [] | [_] | [_, _] | [_, _, _] => simp [decodeUpdate]
  | f1 :: f2 :: f3 :: f4 :: body =>
    constructor
    · intro h
      refine .inr ⟨f1, f2, f3, f4, body, rfl, Nat.lt_of_not_le fun hle => ?_⟩
      rw [decodeUpdate_of_le hle] at h
      cases h
    · rintro (h | ⟨_, _, _, _, _, heq, hlt⟩)
      · simp only [List.length_cons] at h
        omega
      · rw [heq, decodeUpdate_of_lt hlt]

/-- R71, R73: a complete UPDATE frame is its five head bytes and LEN payload bytes, and the rest follows it. -/
theorem length_of_decodeUpdate {f1 f2 f3 f4 : Byte} {body : List Byte} {i : Instr} {rest : List Byte}
    (h : decodeUpdate (f1 :: f2 :: f3 :: f4 :: body) = .command i rest) :
    body.length = lenField f1 f2 f3 f4 + rest.length := by
  rcases Nat.lt_or_ge body.length (lenField f1 f2 f3 f4) with hlt | hle
  · cases (decodeUpdate_of_lt hlt).symm.trans h
  · obtain ⟨-, rfl⟩ := Frame.command.inj ((decodeUpdate_of_le hle).symm.trans h)
    rw [List.length_drop]
    omega

/-! ### A whole frame -/

/-- R72: behind the CMD byte 0x02 stands an UPDATE frame. -/
theorem decodeFrame_update (r : List Byte) : decodeFrame (0x02 :: r) = decodeUpdate r := rfl

/-- R77: any other CMD byte is a frame of one byte. -/
theorem decodeFrame_of_ne_update {cmd : Byte} (h : cmd ≠ 0x02) (rest : List Byte) :
    (∃ i, decodeFrame (cmd :: rest) = .command i rest) ∨ decodeFrame (cmd :: rest) = .illegal cmd rest := by
  rw [decodeFrame, if_neg (show ¬ cmd = cmdUpdate from h)]
  split_ifs
  exacts [.inl ⟨_, rfl⟩, .inl ⟨_, rfl⟩, .inl ⟨_, rfl⟩, .inl ⟨_, rfl⟩, .inr rfl]

/-- R75: 0x00 and the bytes from 0x06 on are illegal. -/
theorem decodeFrame_illegal {b : Byte} (h : b = 0x00 ∨ 0x06 ≤ b.toNat) (rest : List Byte) :
    decodeFrame (b :: rest) = .illegal b rest := by
  have hne (c : Byte) (hc : 1 ≤ c.toNat ∧ c.toNat ≤ 5) : ¬ b = c := by
    rintro rfl
    rcases h with rfl | h
    · exact absurd hc.1 (by decide)
    · omega
  rw [decodeFrame, if_neg (hne cmdInit (by decide)), if_neg (hne cmdUpdate (by decide)),
    if_neg (hne cmdFinal (by decide)), if_neg (hne cmdRdstatus (by decide)), if_neg (hne cmdRddigest (by decide))]

/-- R78: what is incomplete is the empty stream and the UPDATE frame with bytes missing. -/
theorem decodeFrame_eq_incomplete_iff (bs : List Byte) :
    decodeFrame bs = .incomplete ↔ bs = [] ∨ ∃ r, bs = 0x02 :: r ∧ (r.length < 4 ∨
      ∃ f1 f2 f3 f4 body, r = f1 :: f2 :: f3 :: f4 :: body ∧ body.length < lenField f1 f2 f3 f4) := by
  cases bs with
  | nil => exact iff_of_true rfl (.inl rfl)
  | cons cmd r =>
    by_cases hcmd : cmd = 0x02
    · subst hcmd
      rw [decodeFrame_update, decodeUpdate_eq_incomplete_iff]
      simp
    · constructor
      · intro h
        rcases decodeFrame_of_ne_update hcmd r with ⟨i, hi⟩ | hi
        · cases hi.symm.trans h
        · cases hi.symm.trans h
      · rintro (h | ⟨_, h, -⟩)
        · cases h
        · exact absurd (List.cons.inj h).1 hcmd

/-- R71, R73, R74: the frame of a well-formed command, whatever follows it, decodes to that command. -/
theorem decodeFrame_encode {i : Instr} (h : i.wellFormed = true) (rest : List Byte) :
    decodeFrame (encode i ++ rest) = .command i rest := by
  cases i with
  | init | final | rdstatus | rddigest => rfl
  | update p =>
    have hp : p.length ≤ 2 ^ 32 - 1 := of_decide_eq_true h
    have hlen := lenField_ofNat (n := p.length) (by omega)
    refine (decodeUpdate_of_le (body := p ++ rest) ?_).trans ?_
    · rw [hlen, List.length_append]
      omega
    · rw [hlen, List.take_left, List.drop_left]

/-- Settles O4: the decoder compares the CMD byte, and only UPDATE's frame extends beyond it, by LEN. -/
theorem frameLengthIsFoundFromTheHead : Obligations.FrameLengthIsFoundFromTheHead := by
  unfold Obligations.FrameLengthIsFoundFromTheHead
  refine ⟨fun f1 f2 f3 f4 body i rest h => ?_, fun cmd rest h => decodeFrame_of_ne_update h rest⟩
  have hbody : body.length = lenField f1 f2 f3 f4 + rest.length := length_of_decodeUpdate h
  rw [lenField_eq_sum] at hbody
  omega

end Sys2Proof.Proofs.Decoder
end

section
/-! PROOF. A step, by what the decoder finds at the head of the stream (spec/30_encoding.md R70, R75, R78), and the run
of a command sequence (spec/20_memory.md R59). -/

namespace Sys2Proof.Proofs.Stream

open Sys2Proof.Machine Sys2Proof.Safety
open Sys2Proof.Proofs.Decoder

/-! ### One step -/

/-- R70: a step at a complete frame consumes it and runs its command. -/
theorem step_of_command {s : State} {i : Instr} {rest : List Byte} (h : decodeFrame s.stream = .command i rest) :
    step s = exec i (s.advance rest) := by
  simp [step, h]

/-- R75: a step at an illegal frame consumes it and rejects it. -/
theorem step_of_illegal {s : State} {b : Byte} {rest : List Byte} (h : decodeFrame s.stream = .illegal b rest) :
    step s = .next (raiseUsageError .illegalCommand (s.advance rest)) := by
  simp [step, h, execIllegal]

/-- R78: with no complete frame there is nothing but to wait. -/
theorem step_of_incomplete {s : State} (h : decodeFrame s.stream = .incomplete) : step s = waitForBytes s := by
  simp [step, h]

/-- R75: a step at an illegal byte is its rejection, with that byte consumed. -/
theorem step_illegal_byte {s : State} {b : Byte} {rest : List Byte} (hb : b = 0x00 ∨ 0x06 ≤ b.toNat)
    (hs : s.stream = b :: rest) : step s = .next (raiseUsageError .illegalCommand (s.advance rest)) :=
  step_of_illegal (hs ▸ decodeFrame_illegal hb rest)

/-- R70: with no reset event waiting, what the host sends goes behind the stream. -/
theorem hostSend_of_no_resets {s : State} (h : s.resets = []) (more : List Byte) :
    s.hostSend more = s.advance (s.stream ++ more) := by
  simp [State.hostSend, State.advance, h]

/-- Settles O5: the decoder says when a frame is incomplete, `waitForBytes` that nothing happens, and the sent bytes
stand behind the unchanged state's stream. -/
theorem incompleteFrameWaits : Obligations.IncompleteFrameWaits := by
  unfold Obligations.IncompleteFrameWaits
  refine ⟨decodeFrame_eq_incomplete_iff, fun s hne hinc hres => ?_, fun s more i rest _ hres hcmd => ?_⟩
  · rw [step_of_incomplete hinc]
    rcases waitForBytes_cases s with ⟨seg, later, hcons, -⟩ | ⟨-, hnil, -⟩ | ⟨-, -, hwait⟩
    · cases hres.symm.trans hcons
    · exact absurd hnil hne
    · exact hwait
  · rw [hostSend_of_no_resets hres]
    exact step_of_command (s := s.advance (s.stream ++ more)) hcmd

/-- Settles O6: `step_illegal_byte`, with R203's rejection written out. -/
theorem illegalByteIsRejectedAndConsumedAlone : Obligations.IllegalByteIsRejectedAndConsumedAlone := by
  unfold Obligations.IllegalByteIsRejectedAndConsumedAlone
  intro s b rest hb hs
  rw [step_illegal_byte hb hs]
  rfl

/-! ### A command does not see the stream (R59) -/

theorem absorb_advance {v : Byte} {s t : State} (r : List Byte) (h : absorb v s = some t) :
    absorb v (s.advance r) = some (t.advance r) := by
  rcases absorb_cases h with ⟨h0, rfl⟩ | ⟨h0, blk, hblk, rfl⟩
  · exact absorb_store (s := s.advance r) h0
  · exact absorb_block (s := s.advance r) h0 hblk

theorem absorbAll_advance {p : List Byte} {s t : State} (r : List Byte) (h : absorbAll p s = some t) :
    absorbAll p (s.advance r) = some (t.advance r) := by
  induction p generalizing s with
  | nil => exact congrArg (fun u => some (u.advance r)) (Option.some.inj h)
  | cons v p ih =>
    rw [absorbAll] at h
    split at h
    · next u hu => rw [absorbAll, absorb_advance r hu]; exact ih h
    · cases h

/-- R59: a command does the same whatever stands behind its frame, and leaves that in place. -/
theorem exec_advance {i : Instr} {s t : State} (r : List Byte) (h : exec i s = .next t) :
    exec i (s.advance r) = .next (t.advance r) := by
  rcases exec_cases h with ⟨e, he, rfl⟩ | ⟨rfl, rfl⟩ | ⟨p, u, rfl, hopen, hu, rfl⟩ |
    ⟨tail, rfl, hopen, htail, rfl⟩ | ⟨rfl, rfl⟩ | ⟨rfl, hlc, rfl⟩
  · exact exec_of_error (s := s.advance r) he
  · exact exec_init (s.advance r)
  · rw [exec_update_open (s := s.advance r) hopen, absorbAll_advance r hu]
    rfl
  · have htail' : (s.advance r).buf.readPrefix (s.advance r).fill.toNat = some tail := htail
    rw [exec_final_open (s := s.advance r) hopen, htail']
    rfl
  · exact exec_rdstatus (s.advance r)
  · exact exec_rddigest_finalized (s := s.advance r) hlc

/-- A sequence of commands that runs, runs its first command and then the others. -/
theorem execAll_cons_eq_next {i : Instr} {is : List Instr} {s t : State} :
    execAll (i :: is) s = .next t ↔ ∃ u, exec i s = .next u ∧ execAll is u = .next t := by
  rw [execAll]
  cases exec i s <;> simp

theorem execAll_advance {is : List Instr} {s t : State} (r : List Byte) (h : execAll is s = .next t) :
    execAll is (s.advance r) = .next (t.advance r) := by
  induction is generalizing s with
  | nil =>
    cases h
    rfl
  | cons i is ih =>
    obtain ⟨u, hu, ht⟩ := execAll_cons_eq_next.mp h
    exact execAll_cons_eq_next.mpr ⟨u.advance r, exec_advance r hu, ih ht⟩

/-- A step taken is the first of a run. -/
theorem run_succ_of_step {s t : State} (h : step s = .next t) (k : Nat) :
    Host.Core.run core (k + 1) s = Host.Core.run core k t := by
  have hcore : core.step s = .next t := h
  exact (Host.Core.run.eq_2 core s k).trans (by rw [hcore])

/-- R59, R70: the frames of well-formed commands, run one step each, perform the commands in order and leave what
follows the frames. -/
theorem run_encodeAll {is : List Instr} {s t : State} {rest : List Byte} (hwf : ∀ i ∈ is, i.wellFormed = true)
    (hs : s.stream = encodeAll is ++ rest) (h : execAll is s = .next t) :
    Host.Core.run core is.length s = .next (t.advance rest) := by
  induction is generalizing s t with
  | nil =>
    cases h
    subst hs
    rfl
  | cons i is ih =>
    obtain ⟨u, hu, ht⟩ := execAll_cons_eq_next.mp h
    have hs' : s.stream = encode i ++ (encodeAll is ++ rest) := by
      rw [hs, encodeAll, List.map_cons, List.flatten_cons, List.append_assoc, encodeAll]
    have hstep : step s = .next (u.advance (encodeAll is ++ rest)) := by
      rw [step_of_command (hs' ▸ decodeFrame_encode (hwf i List.mem_cons_self) _)]
      exact exec_advance _ hu
    rw [List.length_cons, run_succ_of_step hstep]
    have hrest := execAll_advance (encodeAll is ++ rest) ht
    exact (ih (fun j hj => hwf j (List.mem_cons_of_mem i hj)) rfl hrest :)

end Sys2Proof.Proofs.Stream
end

section
/-! PROOF. The response of each frame (spec/30_encoding.md R80, spec/40_session.md R101). -/

namespace Sys2Proof.Proofs.Responses

open Sys2Proof.Machine

/-- R80, R101: the response in each cell of the legality table, with `s` the state the command finds and `t` the one it
leaves. -/
def responseOf (i : Instr) (lc : Lifecycle) (s t : State) : Response :=
  match i, lc with
  | .init, _ => .ok
  | .update _, .idle => .err 2
  | .update _, .fresh => .ok
  | .update _, .accumulating => .ok
  | .update _, .finalized => .err 3
  | .final, .idle => .err 2
  | .final, .fresh => .okDigest t.digest
  | .final, .accumulating => .okDigest t.digest
  | .final, .finalized => .err 4
  | .rdstatus, _ => .okStatus s.status
  | .rddigest, .idle => .err 5
  | .rddigest, .fresh => .err 5
  | .rddigest, .accumulating => .err 5
  | .rddigest, .finalized => .okDigest s.digest

/-- In a rejected cell of the legality table the response is that cell's error. -/
theorem responseOf_of_error {i : Instr} {lc : Lifecycle} {e : UsageError} (h : legality i lc = some e) (s t : State) :
    responseOf i lc s t = .err e.code := by
  cases i with
  | init | rdstatus => cases h
  | update p | final => cases lc with
    | idle | finalized => cases h; rfl
    | fresh | accumulating => cases h
  | rddigest => cases lc with
    | idle | fresh | accumulating => cases h; rfl
    | finalized => cases h

/-- R80: a command that answers a next state appends the response of its cell and no other. -/
theorem exec_responses {i : Instr} {s t : State} (h : exec i s = .next t) :
    t.responses = s.responses ++ [responseOf i s.lc s t] := by
  rcases exec_cases h with ⟨e, he, rfl⟩ | ⟨rfl, rfl⟩ | ⟨p, u, rfl, hopen, hu, rfl⟩ |
    ⟨tail, rfl, hopen, -, rfl⟩ | ⟨rfl, rfl⟩ | ⟨rfl, hlc, rfl⟩
  · rw [responseOf_of_error he, raiseUsageError_responses]
  · rfl
  · obtain ⟨-, -, -, -, -, -, hresp, -, -⟩ := absorbAll_frame hu
    rcases hopen with hlc | hlc <;> simp [responseOf, hlc, hresp]
  · rcases hopen with hlc | hlc <;> simp [responseOf, hlc]
  · rfl
  · simp [responseOf, hlc]

/-- Settles O20: `exec_responses` for the commands, and R203's rejection for an illegal byte. -/
theorem eachCommandReturnsExactlyOneResponse : Obligations.EachCommandReturnsExactlyOneResponse := by
  unfold Obligations.EachCommandReturnsExactlyOneResponse
  exact ⟨fun s b rest hb hs => ⟨_, Stream.step_illegal_byte hb hs, rfl⟩, fun i s t h => exec_responses h⟩

end Sys2Proof.Proofs.Responses
end

section
/-! PROOF. A session digests the whole message (spec/40_session.md R104, R108 to R111, R116). -/

namespace Sys2Proof.Proofs.Session

open Sys2Proof.Machine Sys2Proof.Safety

/-! ### COMPRESS over the blocks of a byte sequence -/

/-- Block by block: the first `j` blocks, then the next `k`. -/
theorem foldBlocks_add (j k : Nat) (acc : Accum) (bs : List Byte) :
    foldBlocks (j + k) acc bs = foldBlocks k (foldBlocks j acc bs) (bs.drop (64 * j)) := by
  induction j generalizing acc bs with
  | zero => simp [foldBlocks]
  | succ j ih => rw [Nat.succ_add, foldBlocks, ih, foldBlocks, List.drop_drop, Nat.mul_succ, Nat.add_comm 64]

/-- Bytes behind the folded blocks do not matter. -/
theorem foldBlocks_append (k : Nat) (acc : Accum) (bs cs : List Byte) (h : 64 * k ≤ bs.length) :
    foldBlocks k acc (bs ++ cs) = foldBlocks k acc bs := by
  induction k generalizing acc bs with
  | zero => rfl
  | succ k ih =>
    rw [foldBlocks, foldBlocks, List.take_append_of_le_length (by omega), List.drop_append_of_le_length (by omega),
      ih _ _ (by rw [List.length_drop]; omega)]

/-- A block is the block of its bytes. -/
theorem blockOfList_toList (blk : Block) : blockOfList blk.toList = blk := by
  ext i hi
  simp [blockOfList, List.getD]

/-- COMPRESS over a list of blocks is COMPRESS over the byte sequence they form. -/
theorem foldl_compress_eq_foldBlocks (blks : List Block) (acc : Accum) :
    blks.foldl compress acc = foldBlocks blks.length acc (blks.map Vector.toList).flatten := by
  induction blks generalizing acc with
  | nil => rfl
  | cons blk blks ih =>
    have hlen : blk.toList.length = 64 := blk.length_toList
    rw [List.foldl_cons, ih, List.length_cons, foldBlocks, List.map_cons, List.flatten_cons,
      List.take_left' hlen, List.drop_left' hlen, blockOfList_toList]

/-! ### ABSORB -/

/-- The engine has absorbed the byte sequence `m`, beginning a block, from the accumulator `acc`: its complete blocks
are compressed and the bytes after them buffered. -/
structure Absorbed (acc : Accum) (m : List Byte) (s : State) : Prop where
  holds : BufHoldsFill s
  fill : s.fill.toNat = m.length % 64
  bytes : bufferedBytes s = m.drop (64 * (m.length / 64))
  acc_eq : s.acc = foldBlocks (m.length / 64) acc m

/-- R102: INIT begins with the empty sequence. -/
theorem absorbed_beginSession (s : State) (r : Response) : Absorbed initialAcc [] ((beginSession s).respond r) :=
  ⟨rfl, rfl, rfl, rfl⟩

/-- R104: ABSORB extends the sequence by its byte. -/
theorem absorb_of_absorbed {acc : Accum} {m : List Byte} {s : State} (h : Absorbed acc m s) (v : Byte) :
    ∃ t, absorb v s = some t ∧ Absorbed acc (m ++ [v]) t := by
  obtain ⟨hholds, hfill, hbytes, hacc⟩ := h
  obtain ⟨t, ht, hholds', hstore, hblock⟩ := absorb_of_bufHoldsFill hholds v
  obtain ⟨-, -, -, -, -, -, -, -, hcount⟩ := absorb_frame ht
  have hfill' : t.fill.toNat = (m ++ [v]).length % 64 := by
    have hsucc : t.fill.toNat = (s.fill.toNat + 1) % 64 := fill_succ s t.count hcount
    rw [hsucc, hfill, List.length_append, List.length_singleton, Nat.mod_add_mod]
  have hsplit := Nat.div_add_mod m.length 64
  have hdrop : (m ++ [v]).drop (64 * (m.length / 64)) = bufferedBytes s ++ [v] := by
    rw [List.drop_append_of_le_length (by omega), hbytes]
  have hfold : foldBlocks (m.length / 64) acc (m ++ [v]) = s.acc := by
    rw [foldBlocks_append _ _ _ _ (by omega), hacc]
  by_cases h63 : s.fill.toNat = 63
  · obtain ⟨hacc', hbuf'⟩ := hblock h63
    have hlen : (m ++ [v]).length = 64 * (m.length / 64 + 1) := by
      rw [List.length_append, List.length_singleton]
      omega
    have hdiv : (m ++ [v]).length / 64 = m.length / 64 + 1 := by omega
    have htake : (bufferedBytes s ++ [v]).take 64 = bufferedBytes s ++ [v] := by
      rw [List.take_of_length_le]
      rw [← hdrop, List.length_drop]
      omega
    refine ⟨t, ht, hholds', hfill', ?_, ?_⟩
    · rw [hdiv, ← hlen, List.drop_length, bufferedBytes, hbuf', List.map_nil]
    · rw [hdiv, foldBlocks_add, hfold, hdrop, foldBlocks, foldBlocks, htake, hacc']
  · have h63' : s.fill.toNat < 63 := by have := s.fill_lt; omega
    obtain ⟨hacc', hbuf'⟩ := hstore h63'
    have hdiv : (m ++ [v]).length / 64 = m.length / 64 := by
      rw [List.length_append, List.length_singleton]
      omega
    refine ⟨t, ht, hholds', hfill', ?_, ?_⟩
    · rw [hdiv, hdrop, bufferedBytes, hbuf', List.map_append]
      rfl
    · rw [hdiv, hfold, hacc']

/-- R103: UPDATE's loop extends the sequence by its payload. -/
theorem absorbAll_of_absorbed {acc : Accum} {m : List Byte} {s : State} (h : Absorbed acc m s) (p : List Byte) :
    ∃ t, absorbAll p s = some t ∧ Absorbed acc (m ++ p) t := by
  induction p generalizing m s with
  | nil => exact ⟨s, rfl, by rwa [List.append_nil]⟩
  | cons v p ih =>
    obtain ⟨u, hu, habs⟩ := absorb_of_absorbed h v
    obtain ⟨t, ht, habs'⟩ := ih habs
    refine ⟨t, by rw [absorbAll, hu]; exact ht, ?_⟩
    rwa [List.append_assoc] at habs'

/-! ### PAD -/

/-- R108 to R111: the padding blocks are the buffered bytes, 0x80, the zeros of R111 and the length. -/
theorem pad_flatten {n : Nat} (tail : Vector Byte n) (hn : n < 64) (count : Count) :
    ((pad tail hn count).map Vector.toList).flatten =
      tail.toList ++ [0x80] ++ List.replicate (padZeros n) 0 ++ (le64bytes (bitLength count)).toList := by
  unfold pad
  split_ifs with h
  · have hz : padZeros n = 56 - (n + 1) := by unfold padZeros; omega
    simp only [hz, zeroBytes, List.map_cons, List.map_nil, List.flatten_cons, List.flatten_nil, List.append_nil,
      Vector.toList_cast, Vector.toList_append, Vector.toList_push, Vector.toList_replicate]
  · have hz : padZeros n = 64 - (n + 1) + 56 := by unfold padZeros; omega
    simp only [hz, zeroBytes, List.map_cons, List.map_nil, List.flatten_cons, List.flatten_nil, List.append_nil,
      Vector.toList_cast, Vector.toList_append, Vector.toList_push, Vector.toList_replicate, List.replicate_add,
      List.append_assoc]

/-- R110: COUNT in bits is the message length in bits, modulo 2^64. -/
theorem bitLength_ofNat (n : Nat) : bitLength (BitVec.ofNat 64 n) = BitVec.ofNat 64 (8 * n) := by
  rw [bitLength, Nat.mul_comm, BitVec.ofNat_mul]
  rfl

/-- The bytes of a list of blocks. -/
theorem length_flatten_toList (blks : List Block) : (blks.map Vector.toList).flatten.length = 64 * blks.length := by
  induction blks with
  | nil => rfl
  | cons blk blks ih =>
    rw [List.map_cons, List.flatten_cons, List.length_append, ih, Vector.length_toList, List.length_cons]
    omega

/-- R116: once the engine has absorbed a message, the padding blocks behind it are the padded message's last. -/
theorem serializeDigest_pad_of_absorbed {m : List Byte} {s : State} (h : Absorbed initialAcc m s)
    (hcount : s.count = BitVec.ofNat 64 m.length) {tail : Vector Byte s.fill.toNat}
    (htail : tail.toList = bufferedBytes s) :
    serializeDigest ((pad tail s.fill.isLt s.count).foldl compress s.acc) = hashOf m := by
  have hsplit := Nat.div_add_mod m.length 64
  have hzeros : padZeros s.fill.toNat = padZeros m.length := by rw [padZeros, padZeros, h.fill, Nat.mod_mod]
  have hpadded : paddedMessage m = m.take (64 * (m.length / 64)) ++
      ((pad tail s.fill.isLt s.count).map Vector.toList).flatten := by
    rw [pad_flatten, htail, h.bytes, hzeros, hcount, bitLength_ofNat]
    simp only [paddedMessage, ← List.append_assoc, List.take_append_drop]
  have htake : (m.take (64 * (m.length / 64))).length = 64 * (m.length / 64) := by
    rw [List.length_take]
    omega
  have hblocks : (paddedMessage m).length / 64 = m.length / 64 + (pad tail s.fill.isLt s.count).length := by
    rw [hpadded, List.length_append, htake, length_flatten_toList]
    omega
  have hdone : foldBlocks (m.length / 64) initialAcc (paddedMessage m) = s.acc := by
    rw [h.acc_eq, hpadded, foldBlocks_append _ _ _ _ (by omega),
      ← foldBlocks_append _ _ _ (m.drop (64 * (m.length / 64))) (by omega), List.take_append_drop]
  rw [hashOf, hblocks, foldBlocks_add, hdone, hpadded, List.drop_left' htake, foldl_compress_eq_foldBlocks]

/-! ### The commands of a session -/

/-- R107, R116: FINAL answers the digest of the message absorbed. -/
theorem exec_final_of_absorbed {m : List Byte} {s : State} (hopen : SessionOpen s) (h : Absorbed initialAcc m s)
    (hcount : s.count = BitVec.ofNat 64 m.length) :
    ∃ t, exec .final s = .next t ∧ t.responses = s.responses ++ [.okDigest (hashOf m)] := by
  obtain ⟨tail, hread, htail⟩ := Memory.readPrefix_range s.buf s.fill.toNat h.holds
  have hdigest : (finishSession tail s.fill.isLt s).digest = hashOf m :=
    serializeDigest_pad_of_absorbed h hcount htail
  refine ⟨(finishSession tail s.fill.isLt s).respond (.okDigest (hashOf m)), ?_, rfl⟩
  rw [exec_final_open hopen, hread]
  simp only [hdigest]

/-- R83, R116: INIT, UPDATE and FINAL, from any state, answer the digest of the payload. -/
theorem execAll_session (s : State) (p : List Byte) :
    ∃ t, execAll [.init, .update p, .final] s = .next t ∧
      t.responses = s.responses ++ [.ok, .ok, .okDigest (hashOf p)] := by
  obtain ⟨u, hu, habs⟩ := absorbAll_of_absorbed (absorbed_beginSession s .ok) p
  obtain ⟨-, -, -, -, -, -, hresp, -, hcount⟩ := absorbAll_frame hu
  have hupdate : exec (.update p) ((beginSession s).respond .ok) = .next ((u.setLc .accumulating).respond .ok) := by
    rw [exec_update_open (.inl rfl), hu]
  have hcount' : u.count = BitVec.ofNat 64 p.length := hcount.trans (BitVec.zero_add _)
  obtain ⟨t, ht, hresp'⟩ := exec_final_of_absorbed (s := (u.setLc .accumulating).respond .ok) (.inr rfl)
    ⟨habs.holds, habs.fill, habs.bytes, habs.acc_eq⟩ hcount'
  refine ⟨t, ?_, ?_⟩
  · rw [execAll, exec_init]
    simp only [execAll, hupdate, ht]
  · rw [hresp', State.respond_responses, State.setLc_responses, hresp]
    simp

end Sys2Proof.Proofs.Session
end

section
/-! PROOF. The HASH pseudo-instruction (spec/30_encoding.md R83). -/

namespace Sys2Proof.Proofs.HashLine

open Sys2Proof.Machine Sys2Proof.Safety

/-- R83: the commands a HASH line stands for. -/
def hashCommands (p : List Byte) : List Instr := [.init, .update p, .final]

/-- R82: a payload that LEN can count assembles to its frame. -/
theorem assembleUpdate_of_wellFormed {p : List Byte} (h : (Instr.update p).wellFormed = true) :
    assembleUpdate p = some (encode (.update p)) :=
  if_pos h

/-- R83: a HASH line emits the frames of its commands. -/
theorem assembleLine_hash {p : List Byte} (h : (Instr.update p).wellFormed = true) :
    assembleLine (.hash p) = some (encodeAll (hashCommands p)) := by
  simp [assembleLine, assembleUpdate_of_wellFormed h, encodeAll, hashCommands]

/-- R83: its expansion emits the same bytes. -/
theorem assembleProgram_expand_hash {p : List Byte} (h : (Instr.update p).wellFormed = true) :
    assembleProgram (AsmLine.expand (.hash p)) = some (encodeAll (hashCommands p)) := by
  simp [AsmLine.expand, assembleProgram, assembleLine, assembleUpdate_of_wellFormed h, encodeAll, hashCommands]

/-- R83: a HASH line takes the payloads of an UPDATE line. -/
theorem parseTokens_hash (ts : List Token) : parseTokens (.word textHash :: ts) = (parsePayload ts).map .hash := rfl

theorem parseTokens_update (ts : List Token) :
    parseTokens (.word textUpdate :: ts) = (parsePayload ts).map .update := rfl

/-- Settles O44: `run_encodeAll` runs the emitted frames as the session of `execAll_session`. -/
theorem hashLineReturnsTheDigest : Obligations.HashLineReturnsTheDigest := by
  unfold Obligations.HashLineReturnsTheDigest
  refine ⟨fun s p hlen => ⟨rfl, ?_⟩, fun ts => ⟨parseTokens_hash ts, parseTokens_update ts⟩⟩
  have hupdate : (Instr.update p).wellFormed = true := decide_eq_true (Nat.le_sub_one_of_lt hlen)
  have hwf : ∀ i ∈ hashCommands p, i.wellFormed = true := by
    simp only [hashCommands, List.forall_mem_cons]
    exact ⟨rfl, hupdate, rfl, List.forall_mem_nil _⟩
  obtain ⟨t, ht, hresp⟩ := Session.execAll_session s p
  refine ⟨encodeAll (hashCommands p), t, assembleLine_hash hupdate, assembleProgram_expand_hash hupdate,
    fun rest hs => ⟨?_, hresp⟩⟩
  exact Stream.run_encodeAll hwf hs ht

end Sys2Proof.Proofs.HashLine
end

section
/-! PROOF. UPDATE and FINAL in a session (spec/40_session.md R103 to R107, R112, R116). -/

namespace Sys2Proof.Proofs.Streaming

open Sys2Proof.Machine Sys2Proof.Safety
open Sys2Proof.Proofs.Session

/-! ### UPDATE -/

/-- R30: with exactly fill bytes buffered, these are what the engine has absorbed since its accumulator was as it is. -/
theorem absorbed_bufferedBytes {s : State} (h : BufHoldsFill s) : Absorbed s.acc (bufferedBytes s) s := by
  have hlen : (bufferedBytes s).length = s.fill.toNat := by
    simpa [bufferedBytes] using congrArg List.length h
  have hdiv : (bufferedBytes s).length / 64 = 0 := Nat.div_eq_of_lt (hlen ▸ s.fill_lt)
  exact ⟨h, by rw [hlen, Nat.mod_eq_of_lt s.fill_lt], by rw [hdiv]; rfl, by rw [hdiv]; rfl⟩

/-- R29, R30: the bytes absorbed determine the accumulator and BUF. -/
theorem absorbed_unique {acc : Accum} {m : List Byte} {s t : State} (hs : Absorbed acc m s) (ht : Absorbed acc m t) :
    s.acc = t.acc ∧ s.buf = t.buf := by
  refine ⟨hs.acc_eq.trans ht.acc_eq.symm, ?_⟩
  have hfill : s.fill.toNat = t.fill.toNat := hs.fill.trans ht.fill.symm
  rw [List.zip_of_prod hs.holds hs.bytes, List.zip_of_prod ht.holds ht.bytes, hfill]

/-- What `k` performed UPDATEs of `n` bytes in all leave, the accumulator and BUF apart (R23, R28, R103). -/
structure UpdatedBy (k n : Nat) (s t : State) : Prop where
  lc : t.lc = if k = 0 then s.lc else .accumulating
  count : t.count = s.count + BitVec.ofNat 64 n
  responses : t.responses = s.responses ++ List.replicate k .ok
  digest : t.digest = s.digest
  err : t.err = s.err
  ecode : t.ecode = s.ecode
  stream : t.stream = s.stream
  resets : t.resets = s.resets

/-- No UPDATE. -/
theorem UpdatedBy.refl (s : State) : UpdatedBy 0 0 s s :=
  ⟨rfl, (BitVec.add_zero _).symm, (List.append_nil _).symm, rfl, rfl, rfl, rfl, rfl⟩

/-- One UPDATE, then `k` more. -/
theorem UpdatedBy.trans {k m n : Nat} {s t u : State} (h : UpdatedBy 1 m s t) (h' : UpdatedBy k n t u) :
    UpdatedBy (k + 1) (m + n) s u where
  lc := by rw [h'.lc, h.lc]; simp
  count := by rw [h'.count, h.count, BitVec.ofNat_add, BitVec.add_assoc]
  responses := by rw [h'.responses, h.responses, List.append_assoc, Nat.add_comm, List.replicate_add]
  digest := h'.digest.trans h.digest
  err := h'.err.trans h.err
  ecode := h'.ecode.trans h.ecode
  stream := h'.stream.trans h.stream
  resets := h'.resets.trans h.resets

/-- UPDATEs leave an open session open. -/
theorem UpdatedBy.sessionOpen {k n : Nat} {s t : State} (h : UpdatedBy k n s t) (hopen : SessionOpen s) :
    SessionOpen t := by
  rw [SessionOpen, h.lc]
  split_ifs
  · exact hopen
  · exact .inr rfl

/-- R103, R105: UPDATE in an open session extends the bytes absorbed by its payload. -/
theorem exec_update_of_absorbed {acc : Accum} {m : List Byte} {s : State} (hopen : SessionOpen s)
    (h : Absorbed acc m s) (p : List Byte) :
    ∃ t, exec (.update p) s = .next t ∧ Absorbed acc (m ++ p) t ∧ UpdatedBy 1 p.length s t := by
  obtain ⟨u, hu, habs⟩ := absorbAll_of_absorbed h p
  obtain ⟨-, hdigest, herr, hecode, hstream, hresets, hresp, -, hcount⟩ := absorbAll_frame hu
  refine ⟨(u.setLc .accumulating).respond .ok, by rw [exec_update_open hopen, hu],
    ⟨habs.holds, habs.fill, habs.bytes, habs.acc_eq⟩, rfl, hcount, ?_, hdigest, herr, hecode, hstream, hresets⟩
  rw [State.respond_responses, State.setLc_responses, hresp]
  rfl

/-- R106: a sequence of UPDATEs extends them by the concatenation of its payloads. -/
theorem execAll_updates_of_absorbed {acc : Accum} {m : List Byte} {s : State} (hopen : SessionOpen s)
    (h : Absorbed acc m s) (cs : List (List Byte)) :
    ∃ t, execAll (cs.map .update) s = .next t ∧ Absorbed acc (m ++ cs.flatten) t ∧
      UpdatedBy cs.length cs.flatten.length s t := by
  induction cs generalizing m s with
  | nil => exact ⟨s, rfl, by rwa [List.flatten_nil, List.append_nil], .refl s⟩
  | cons p cs ih =>
    obtain ⟨u, hu, habs, hupd⟩ := exec_update_of_absorbed hopen h p
    obtain ⟨t, ht, habs', hupd'⟩ := ih (hupd.sessionOpen hopen) habs
    refine ⟨t, Stream.execAll_cons_eq_next.mpr ⟨u, hu, ht⟩, ?_, ?_⟩
    · rwa [List.flatten_cons, ← List.append_assoc]
    · rw [List.flatten_cons, List.length_append]
      exact hupd.trans hupd'

/-- Settles O12: what `exec_update_of_absorbed` says of the bytes buffered before. -/
theorem updateCompressesEveryCompleteBlock : Obligations.UpdateCompressesEveryCompleteBlock := by
  unfold Obligations.UpdateCompressesEveryCompleteBlock
  refine ⟨fun s p hopen hholds => ?_, fun s p hlc => ?_, fun s p hlc => ?_⟩
  · obtain ⟨t, ht, habs, hupd⟩ := exec_update_of_absorbed hopen (absorbed_bufferedBytes hholds) p
    exact ⟨t, ht, hupd.lc, hupd.count, habs.acc_eq, habs.holds, habs.bytes, hupd.responses, hupd.digest, hupd.err,
      hupd.ecode, hupd.stream, hupd.resets⟩
  · exact exec_of_error (e := .noSession) (by rw [hlc]; rfl)
  · exact exec_of_error (e := .updateAfterFinal) (by rw [hlc]; rfl)

/-! ### FINAL -/

/-- R107, R112: FINAL in an open session finishes it with the bytes buffered. -/
theorem exec_final_of_bufHoldsFill {s : State} (hopen : SessionOpen s) (h : BufHoldsFill s) :
    ∃ tail : Vector Byte s.fill.toNat, tail.toList = bufferedBytes s ∧
      exec .final s = .next ((finishSession tail s.fill.isLt s).respond
        (.okDigest (finishSession tail s.fill.isLt s).digest)) := by
  obtain ⟨tail, hread, htail⟩ := Memory.readPrefix_range s.buf s.fill.toNat h
  exact ⟨tail, htail, by rw [exec_final_open hopen, hread]⟩

/-- R181: the bytes of a serialized word. -/
theorem getElem_le32bytes (w : Word) (j : Nat) (hj : j < 4) : (le32bytes w)[j] = w.extractLsb' (8 * j) 8 := by
  obtain rfl | rfl | rfl | rfl : j = 0 ∨ j = 1 ∨ j = 2 ∨ j = 3 := by omega
  all_goals rfl

/-- R183: the bytes of a digest, four from each accumulator word. -/
theorem getElem_serializeDigest (acc : Accum) (j : Nat) (hj : j < 4) :
    (serializeDigest acc)[j] = acc.a.extractLsb' (8 * j) 8 ∧
    (serializeDigest acc)[4 + j] = acc.b.extractLsb' (8 * j) 8 ∧
    (serializeDigest acc)[8 + j] = acc.c.extractLsb' (8 * j) 8 ∧
    (serializeDigest acc)[12 + j] = acc.d.extractLsb' (8 * j) 8 := by
  simp only [← getElem_le32bytes _ j hj, serializeDigest]
  refine ⟨?_, ?_, ?_, ?_⟩ <;> grind

/-- Settles O16: FINAL finishes the session by `exec_final_of_bufHoldsFill`, and the legality table turns away the
rest. -/
theorem finalPadsCompressesAndLatchesTheDigest : Obligations.FinalPadsCompressesAndLatchesTheDigest := by
  unfold Obligations.FinalPadsCompressesAndLatchesTheDigest
  refine ⟨fun s hopen hholds => ?_, fun s hlc => ?_, fun s hlc => ?_⟩
  · obtain ⟨tail, htail, hfinal⟩ := exec_final_of_bufHoldsFill hopen hholds
    exact ⟨_, tail, hfinal, htail, rfl, fun j hj => getElem_serializeDigest _ j hj, rfl, rfl, fun _ => rfl, rfl, rfl,
      rfl, rfl, rfl, fun p => exec_of_error (e := .updateAfterFinal) rfl, exec_of_error (e := .finalAfterFinal) rfl⟩
  · exact exec_of_error (e := .noSession) (by rw [hlc]; rfl)
  · exact exec_of_error (e := .finalAfterFinal) (by rw [hlc]; rfl)

/-! ### Any split of a payload -/

/-- R108: PAD depends on the bytes of the tail only, whatever their number is called. -/
theorem pad_congr {n n' : Nat} {tail : Vector Byte n} {tail' : Vector Byte n'} (h : tail.toList = tail'.toList)
    (hn : n < 64) (hn' : n' < 64) (count : Count) : pad tail hn count = pad tail' hn' count := by
  obtain rfl : n = n' := by simpa using congrArg List.length h
  rw [Vector.toList_inj.mp h]

/-- Settles O15: both sequences absorb the same bytes (`absorbed_unique`), so FINAL pads and compresses the same. -/
theorem streamingEquivalence : Obligations.StreamingEquivalence := by
  unfold Obligations.StreamingEquivalence
  intro s cs hopen hholds
  have habs : Absorbed s.acc (bufferedBytes s) s := absorbed_bufferedBytes hholds
  obtain ⟨t, ht, habst, htupd⟩ := execAll_updates_of_absorbed hopen habs cs
  obtain ⟨u, hu, habsu, huupd⟩ := exec_update_of_absorbed hopen habs cs.flatten
  obtain ⟨hacc, hbuf⟩ := absorbed_unique habst habsu
  have hcount : t.count = u.count := htupd.count.trans huupd.count.symm
  obtain ⟨tail, htail, htfinal⟩ := exec_final_of_bufHoldsFill (htupd.sessionOpen hopen) habst.holds
  obtain ⟨tail', htail', hufinal⟩ := exec_final_of_bufHoldsFill (huupd.sessionOpen hopen) habsu.holds
  have hpad : pad tail t.fill.isLt t.count = pad tail' u.fill.isLt u.count := by
    rw [hcount]
    exact pad_congr (by rw [htail, htail', bufferedBytes, bufferedBytes, hbuf]) _ _ _
  refine ⟨t, u, _, _, ht, hu, hcount, hacc, fun a _ => by rw [hbuf], huupd.lc, ?_, htfinal, hufinal, ?_⟩
  · simp only [htupd.lc, List.length_eq_zero_iff]
  · simp only [State.respond_digest, finishSession_digest, hpad, hacc]

/-! ### A whole session -/

/-- Commands behind a sequence that runs go on from the state it leaves. -/
theorem execAll_append_of_next {is : List Instr} {s t : State} (h : execAll is s = .next t) (js : List Instr) :
    execAll (is ++ js) s = execAll js t := by
  induction is generalizing s with
  | nil =>
    cases h
    rfl
  | cons i is ih =>
    obtain ⟨u, hu, ht⟩ := Stream.execAll_cons_eq_next.mp h
    rw [List.cons_append, execAll, hu]
    exact ih ht

/-- Settles O42: INIT has absorbed nothing, the UPDATEs absorb the message, and FINAL answers its hash. -/
theorem sessionDigestIsTheHashOfTheMessage : Obligations.SessionDigestIsTheHashOfTheMessage := by
  unfold Obligations.SessionDigestIsTheHashOfTheMessage
  intro s cs
  obtain ⟨u, hu, habs, hupd⟩ := execAll_updates_of_absorbed (s := (beginSession s).respond .ok) (.inl rfl)
    (absorbed_beginSession s .ok) cs
  have hinit : execAll ([.init] ++ cs.map .update) s = .next u :=
    Stream.execAll_cons_eq_next.mpr ⟨_, exec_init s, hu⟩
  obtain ⟨tail, htail, hfinal⟩ := exec_final_of_bufHoldsFill (hupd.sessionOpen (.inl rfl)) habs.holds
  have hdigest : (finishSession tail u.fill.isLt u).digest = hashOf cs.flatten :=
    serializeDigest_pad_of_absorbed habs (hupd.count.trans (BitVec.zero_add _)) htail
  refine ⟨_, (execAll_append_of_next hinit [.final]).trans (Stream.execAll_cons_eq_next.mpr ⟨_, hfinal, rfl⟩), rfl,
    hdigest, ?_, hupd.err, hupd.ecode⟩
  rw [State.respond_responses, finishSession_responses, hdigest, hupd.responses, State.respond_responses,
    Nat.add_comm, List.replicate_add, beginSession_responses]
  simp

end Sys2Proof.Proofs.Streaming
end

section
/-! PROOF. The padding of the last block or blocks (spec/40_session.md R108 to R111). -/

namespace Sys2Proof.Proofs.Padding

open Sys2Proof.Machine Sys2Proof.Safety
open Sys2Proof.Proofs.Session (pad_flatten bitLength_ofNat)

section Blocks

variable {n : Nat} (tail : Vector Byte n) (hn : n < 64) (count : Count)

/-- R108, R109: up to fill 55 the 0x80 byte and the length stand in the tail's own block. -/
theorem pad_toList_of_le (h : n ≤ 55) : (pad tail hn count).map Vector.toList =
    [tail.toList ++ [0x80] ++ List.replicate (55 - n) 0 ++ (le64bytes (count * 8)).toList] := by
  have hz : 56 - (n + 1) = 55 - n := by omega
  rw [pad, dif_pos (Nat.succ_le_succ h)]
  simp only [hz, zeroBytes, bitLength, List.map_cons, List.map_nil, Vector.toList_cast, Vector.toList_append,
    Vector.toList_push, Vector.toList_replicate]

/-- R108, R109: from fill 56 on the length stands in a block of its own. -/
theorem pad_toList_of_lt (h : 55 < n) : (pad tail hn count).map Vector.toList =
    [tail.toList ++ [0x80] ++ List.replicate (63 - n) 0,
     List.replicate 56 0 ++ (le64bytes (count * 8)).toList] := by
  have hz : 64 - (n + 1) = 63 - n := by omega
  rw [pad, dif_neg (by omega)]
  simp only [hz, zeroBytes, bitLength, List.map_cons, List.map_nil, Vector.toList_cast, Vector.toList_append,
    Vector.toList_push, Vector.toList_replicate]

/-- R110: in both branches the last block ends in the length field, at offset 56. -/
theorem getLast?_pad : ∃ (blk : Block) (front : List Byte), (pad tail hn count).getLast? = some blk ∧
    front.length = 56 ∧ blk.toList = front ++ (le64bytes (count * 8)).toList := by
  have key : ∃ front : List Byte, front.length = 56 ∧
      (pad tail hn count).getLast?.map Vector.toList = some (front ++ (le64bytes (count * 8)).toList) := by
    rw [← List.getLast?_map]
    rcases Nat.lt_or_ge 55 n with h | h
    · exact ⟨List.replicate 56 0, rfl, by rw [pad_toList_of_lt tail hn count h]; rfl⟩
    · refine ⟨tail.toList ++ [0x80] ++ List.replicate (55 - n) 0, ?_, by rw [pad_toList_of_le tail hn count h]; rfl⟩
      simp
      omega
  obtain ⟨front, hlen, hlast⟩ := key
  obtain ⟨blk, hblk, hbytes⟩ := Option.map_eq_some_iff.mp hlast
  exact ⟨blk, front, hblk, hlen, hbytes⟩

end Blocks

/-- R182: the bytes of a serialized count. -/
theorem getElem_le64bytes (l : Count) (j : Nat) (hj : j < 8) : (le64bytes l)[j] = l.extractLsb' (8 * j) 8 := by
  obtain rfl | rfl | rfl | rfl | rfl | rfl | rfl | rfl :
    j = 0 ∨ j = 1 ∨ j = 2 ∨ j = 3 ∨ j = 4 ∨ j = 5 ∨ j = 6 ∨ j = 7 := by omega
  all_goals rfl

/-- Settles O31: the two branches are `pad_toList_of_le` and `pad_toList_of_lt`. -/
theorem paddingHasOneOrTwoBlocks : Obligations.PaddingHasOneOrTwoBlocks := by
  unfold Obligations.PaddingHasOneOrTwoBlocks
  intro n tail hn count
  split_ifs with h
  · exact pad_toList_of_le tail hn count h
  · exact pad_toList_of_lt tail hn count (Nat.lt_of_not_le h)

/-- Settles O32: the last block ends in the bytes of COUNT in bits, and wrapping COUNT does not change these. -/
theorem lengthFieldIsTheBitLength : Obligations.LengthFieldIsTheBitLength := by
  unfold Obligations.LengthFieldIsTheBitLength
  intro n tail hn total j hj
  obtain ⟨blk, front, hblk, hlen, hbytes⟩ := getLast?_pad tail hn (BitVec.ofNat 64 total)
  have hbits : BitVec.ofNat 64 total * 8 = BitVec.ofNat 64 (8 * total) := bitLength_ofNat total
  have hbyte : blk[56 + j] = (le64bytes (BitVec.ofNat 64 (8 * total)))[j] := by
    rw [← Vector.getElem_toList (by simp; omega)]
    simp only [hbytes, hbits, ← hlen]
    simp
  refine ⟨blk, hblk, ?_⟩
  rw [hbyte, getElem_le64bytes _ j hj, BitVec.extractLsb'_toNat, BitVec.toNat_ofNat, Nat.shiftRight_eq_div_pow]

/-- Settles O33: the padding as one byte sequence is `pad_flatten`, and `padZeros` is what completes the block. -/
theorem paddedMessageIsWholeBlocks : Obligations.PaddedMessageIsWholeBlocks := by
  unfold Obligations.PaddedMessageIsWholeBlocks
  intro n tail hn count
  have hz : padZeros n < 64 ∧ (n + padZeros n) % 64 = 55 := by unfold padZeros; omega
  obtain ⟨hlt, hmod⟩ := hz
  exact ⟨padZeros n, hlt, hmod, pad_flatten tail hn count, fun total htotal => by omega⟩

end Sys2Proof.Proofs.Padding
end

section
/-! PROOF. INIT, and the readback commands RDSTATUS and RDDIGEST (spec/10_state.md R31, spec/40_session.md R102, R113,
R114). -/

namespace Sys2Proof.Proofs.InitAndReadback

open Sys2Proof.Machine Sys2Proof.Safety
open BitVec (extractLsb'_append_eq_left extractLsb'_append_eq_right extractLsb'_append_eq_of_le)

/-- R31: STATUS is the concatenation of its fields, the most significant first. -/
theorem status_eq_append (s : State) : s.status = 0#2 ++ s.ecode ++ BitVec.ofBool s.err ++ s.lc.code := by
  ext k hk
  simp only [State.status]
  grind

/-- R22, R31: bits 1:0 of STATUS are LC's code. -/
theorem status_state (s : State) : s.status.extractLsb' 0 2 = s.lc.code := by
  rw [status_eq_append]
  exact extractLsb'_append_eq_right

/-- R31, R32: bit 2 is ERR. -/
theorem status_err (s : State) : s.status.getLsbD 2 = s.err := by
  rw [status_eq_append]
  grind

/-- R31, R33: bits 5:3 are ECODE. -/
theorem status_ecode (s : State) : s.status.extractLsb' 3 3 = s.ecode := by
  rw [status_eq_append]
  exact (extractLsb'_append_eq_of_le (by decide)).trans <|
    (extractLsb'_append_eq_of_le (by decide)).trans extractLsb'_append_eq_right

/-- R31: bits 7:6 are zero. -/
theorem status_high (s : State) : s.status.extractLsb' 6 2 = 0 := by
  rw [status_eq_append]
  exact (extractLsb'_append_eq_of_le (by decide)).trans <|
    (extractLsb'_append_eq_of_le (by decide)).trans extractLsb'_append_eq_left

/-- R101, R114: RDDIGEST is rejected outside Finalized. -/
theorem exec_rddigest_of_ne {s : State} (h : s.lc ≠ .finalized) : exec .rddigest s = .next (rejectedWith 5 s) := by
  have hillegal : legality .rddigest s.lc = some .digestNotValid := by
    cases hlc : s.lc with
    | idle | fresh | accumulating => rfl
    | finalized => exact absurd hlc h
  exact exec_of_error hillegal

/-- Settles O10: INIT is `beginSession` in every state, and in Fresh the DIGEST it takes away is no value. -/
theorem initBeginsACleanSession : Obligations.InitBeginsACleanSession := by
  unfold Obligations.InitBeginsACleanSession
  intro s
  refine ⟨(beginSession s).respond .ok, (beginSession ((beginSession s).respond .ok)).respond .ok, exec_init s, rfl,
    rfl, rfl, fun _ => rfl, rfl, rfl, status_state _, rfl, rfl, rfl, exec_rddigest_of_ne (by simp), exec_init _, ?_⟩
  exact
    { lc := rfl, err := rfl, ecode := rfl, stream := rfl, resets := rfl, responses := rfl
      acc := fun _ => rfl
      count := fun _ => rfl
      buf := fun _ _ _ => rfl
      digest := fun hlc => by cases hlc }

/-- Settles O17: STATUS field by field. -/
theorem rdstatusReturnsStatusAndChangesNothing : Obligations.RdstatusReturnsStatusAndChangesNothing := by
  unfold Obligations.RdstatusReturnsStatusAndChangesNothing
  intro s
  refine ⟨s.status, exec_rdstatus s, (status_state s).trans ?_, status_err s, status_ecode s, status_high s, rfl⟩
  cases s.lc <;> rfl

/-- Settles O18: RDDIGEST by LC, performed in Finalized and rejected elsewhere. -/
theorem rddigestReturnsTheLatchedDigest : Obligations.RddigestReturnsTheLatchedDigest := by
  unfold Obligations.RddigestReturnsTheLatchedDigest
  exact fun s => ⟨exec_rddigest_finalized, exec_rddigest_of_ne⟩

end Sys2Proof.Proofs.InitAndReadback
end

section
/-! PROOF. COMPRESS, its mixing functions and its round schedule (spec/41_compression.md R140 to R157). -/

namespace Sys2Proof.Proofs.Compression

open Sys2Proof.Machine

/-! ### The mixing functions -/

/-- R143: the mixing function of a round, by the pass the round lies in. -/
theorem mixOf_eq_ite (r : Fin 64) (b c d : Word) :
    mixOf r b c d = if r.val < 16 then mixF1 b c d else if r.val < 32 then mixF2 b c d
      else if r.val < 48 then mixF3 b c d else mixF4 b c d := by
  have hr : r.val < 64 := r.isLt
  split_ifs
  · have hpass : r.val / 16 = 0 := by omega
    simp only [mixOf, hpass]
  · have hpass : r.val / 16 = 1 := by omega
    simp only [mixOf, hpass]
  · have hpass : r.val / 16 = 2 := by omega
    simp only [mixOf, hpass]
  · have hpass : r.val / 16 = 3 := by omega
    simp only [mixOf, hpass]

/-- R144: bit by bit, `b` selects between `c` and `d`. -/
theorem getLsbD_mixF1 (b c d : Word) {k : Nat} (hk : k < 32) :
    (mixF1 b c d).getLsbD k = if b.getLsbD k = true then c.getLsbD k else d.getLsbD k := by
  simp only [mixF1, BitVec.getLsbD_or, BitVec.getLsbD_and, BitVec.getLsbD_not, hk]
  cases b.getLsbD k <;> simp

/-- R145: bit by bit, `d` selects between `b` and `c`. -/
theorem getLsbD_mixF2 (b c d : Word) {k : Nat} (hk : k < 32) :
    (mixF2 b c d).getLsbD k = if d.getLsbD k = true then b.getLsbD k else c.getLsbD k := by
  simp only [mixF2, BitVec.getLsbD_or, BitVec.getLsbD_and, BitVec.getLsbD_not, hk]
  cases d.getLsbD k <;> simp

/-- R146: each bit is the parity of the three bits. -/
theorem getLsbD_mixF3 (b c d : Word) (k : Nat) :
    (mixF3 b c d).getLsbD k = (b.getLsbD k ^^ (c.getLsbD k ^^ d.getLsbD k)) := by
  simp only [mixF3, BitVec.getLsbD_xor, Bool.xor_assoc]

/-- R147: `NOT d` is taken within the word, so bit `k` of it is the complement of `d`'s only for `k < 32`. -/
theorem getLsbD_mixF4 (b c d : Word) {k : Nat} (hk : k < 32) :
    (mixF4 b c d).getLsbD k = (c.getLsbD k ^^ (b.getLsbD k || !d.getLsbD k)) := by
  simp only [mixF4, BitVec.getLsbD_xor, BitVec.getLsbD_or, BitVec.getLsbD_not, hk, decide_true, Bool.true_and]

/-- Settles O35: `mixOf_eq_ite` names the pass's function, and reading bit `k` of it is that function's bit rule. -/
theorem mixingFunctionsBitByBit : Obligations.MixingFunctionsBitByBit := by
  unfold Obligations.MixingFunctionsBitByBit
  intro r b c d k hk
  simp only [mixOf_eq_ite, apply_ite (fun x : Word => x.getLsbD k), getLsbD_mixF1 b c d hk, getLsbD_mixF2 b c d hk,
    getLsbD_mixF3, getLsbD_mixF4 b c d hk]

/-! ### The round schedule -/

/-- R142, R143: round `i` of the pass that starts at round `start`. -/
def roundFrom (start : Nat) (i : Fin 16) : Fin 64 := Fin.ofNat 64 (start + i.val)

/-- R142, R143: the 64 rounds are the four passes one after the other. -/
theorem finRange_eq_passes :
    List.finRange 64 = (List.finRange 16).map (roundFrom 0) ++ (List.finRange 16).map (roundFrom 16) ++
      (List.finRange 16).map (roundFrom 32) ++ (List.finRange 16).map (roundFrom 48) := by
  decide

/-- Settles O37: the table's rows are compared pass by pass, and its function column is `mixOf_eq_ite`. -/
theorem roundScheduleIsTheTable : Obligations.RoundScheduleIsTheTable := by
  unfold Obligations.RoundScheduleIsTheTable
  refine ⟨?_, mixOf_eq_ite⟩
  rw [finRange_eq_passes]
  simp only [List.map_append]
  refine congrArg₂ _ (congrArg₂ _ (congrArg₂ _ ?_ ?_) ?_) ?_
  all_goals rfl

/-! ### The rounds -/

/-- A left fold over `Fin n` in increasing order ends in the `n`-th element of any sequence that starts at the fold's
initial value and takes its steps. -/
theorem foldl_finRange_eq {α : Type} {n : Nat} {f : α → Fin n → α} {w : Nat → α}
    (h : ∀ r : Fin n, w (r.val + 1) = f (w r.val) r) : (List.finRange n).foldl f (w 0) = w n := by
  induction n with
  | zero => rfl
  | succ n ih =>
    have hinit : (List.finRange n).foldl (fun x r => f x r.castSucc) (w 0) = w n := ih fun r => h r.castSucc
    rw [List.finRange_succ_last, List.foldl_append, List.foldl_map, hinit]
    exact (h (Fin.last n)).symm

/-- Settles O34: the recurrence is `roundOf`'s, so the fold over the rounds ends in `w 64`. -/
theorem compressIsSixtyFourRoundsAndFeedForward : Obligations.CompressIsSixtyFourRoundsAndFeedForward := by
  unfold Obligations.CompressIsSixtyFourRoundsAndFeedForward
  rintro acc blk w rfl hround
  have hlast : workingRegisters (w 0) blk = w 64 := foldl_finRange_eq hround
  rw [compress, hlast]

end Sys2Proof.Proofs.Compression
end

section
/-! PROOF. Words and digests as bytes, and a digest as text (spec/42_byte_order.md R181, R183, R186). -/

namespace Sys2Proof.Proofs.ByteOrder

open Sys2Proof.Machine
open Sys2Proof.Proofs.MessageWords (extractLsb'_le32)
open Sys2Proof.Proofs.Decoder (le32_le32bytes)
open Sys2Proof.Proofs.Streaming (getElem_le32bytes getElem_serializeDigest)

/-! ### Words and digests as bytes -/

/-- R181: serializing a word that was read from four bytes gives these bytes. -/
theorem le32bytes_le32 (b0 b1 b2 b3 : Byte) : le32bytes (le32 b0 b1 b2 b3) = #v[b0, b1, b2, b3] := by
  ext1 j hj
  rw [getElem_le32bytes _ j hj, extractLsb'_le32 _ _ _ _ j hj]

/-- Settles O40: `le32bytes_le32` is one round trip, `le32_le32bytes` the other. -/
theorem wordSerializationRoundTrips : Obligations.WordSerializationRoundTrips := by
  unfold Obligations.WordSerializationRoundTrips
  exact ⟨fun _ => rfl, fun b0 b1 b2 b3 => congrArg Vector.toList (le32bytes_le32 b0 b1 b2 b3), le32_le32bytes⟩

/-- Settles O41: `getElem_serializeDigest` gives the bytes of each of the four words. -/
theorem digestIsTheLittleEndianAccumulator : Obligations.DigestIsTheLittleEndianAccumulator := by
  unfold Obligations.DigestIsTheLittleEndianAccumulator
  intro acc i j hi hj
  obtain ⟨ha, hb, hc, hd⟩ := getElem_serializeDigest acc j hj
  obtain rfl | rfl | rfl | rfl : i = 0 ∨ i = 1 ∨ i = 2 ∨ i = 3 := by omega
  · simpa using ha
  · exact hb
  · exact hc
  · exact hd

/-! ### The hexadecimal display -/

/-- Each byte takes two characters. -/
theorem length_flatten_map_hexByte (bs : List Byte) : (bs.map hexByte).flatten.length = 2 * bs.length := by
  induction bs with
  | nil => rfl
  | cons b bs ih =>
    rw [List.map_cons, List.flatten_cons, List.length_append, ih, List.length_cons, Nat.mul_succ, Nat.add_comm]
    rfl

/-- Characters `2j` and `2j + 1` are the two digits of byte `j`, the most significant nibble first. -/
theorem getElem?_flatten_map_hexByte (bs : List Byte) (j : Nat) :
    (bs.map hexByte).flatten[2 * j]? = bs[j]?.map (fun b => hexDigit (b.toNat / 16)) ∧
    (bs.map hexByte).flatten[2 * j + 1]? = bs[j]?.map (fun b => hexDigit (b.toNat % 16)) := by
  induction bs generalizing j with
  | nil => exact ⟨rfl, rfl⟩
  | cons b bs ih =>
    cases j with
    | zero => exact ⟨rfl, rfl⟩
    | succ j => exact ih j

/-- Settles O46: the digits are the table of `hexDigit`, and the display has the two digits of byte `j` at `2j`. -/
theorem hexDisplayShowsEachByteInOrder : Obligations.HexDisplayShowsEachByteInOrder := by
  unfold Obligations.HexDisplayShowsEachByteInOrder
  refine ⟨by decide, fun dg j hj => ?_⟩
  have hbyte : dg.toList[j]? = some dg[j] := by simp [hj]
  obtain ⟨hhigh, hlow⟩ := getElem?_flatten_map_hexByte dg.toList j
  rw [hbyte] at hhigh hlow
  exact ⟨by rw [hexDisplay, length_flatten_map_hexByte, Vector.length_toList], hhigh, hlow⟩

end Sys2Proof.Proofs.ByteOrder
end

section
/-! PROOF. Usage errors and their codes (spec/60_exceptions.md R203, spec/70_reset_and_hazards.md R235). -/

namespace Sys2Proof.Proofs.Rejection

open Sys2Proof.Machine Sys2Proof.Safety

/-- R203: the first error since reset is the one ECODE records. -/
theorem rejectedWith_ecode_of_no_err {s : State} (h : s.err = false) (code : BitVec 3) :
    (rejectedWith code s).ecode = code :=
  if_neg (by simp [h])

/-- R203: a later error leaves ECODE as it is. -/
theorem rejectedWith_ecode_of_err {s : State} (h : s.err = true) (code : BitVec 3) :
    (rejectedWith code s).ecode = s.ecode :=
  if_pos h

/-- Settles O19: UPDATE and FINAL by their rejected cells of the legality table, RDDIGEST by `exec_rddigest_of_ne`, an
illegal byte by `step_illegal_byte`, and ECODE by whether ERR was set. -/
theorem rejectionIsPrecise : Obligations.RejectionIsPrecise := by
  unfold Obligations.RejectionIsPrecise
  refine ⟨fun s p hlc => ?_, fun s hlc => ?_, fun s p hlc => ?_, fun s hlc => ?_,
    fun s hne => InitAndReadback.exec_rddigest_of_ne hne, fun s b rest hb hs => Stream.step_illegal_byte hb hs,
    fun s code => ⟨rfl, fun herr => rejectedWith_ecode_of_no_err herr code,
      fun herr => rejectedWith_ecode_of_err herr code, rfl, rfl, rfl, rfl, rfl, rfl⟩⟩
  · exact exec_of_error (e := .noSession) (by rw [hlc]; rfl)
  · exact exec_of_error (e := .noSession) (by rw [hlc]; rfl)
  · exact exec_of_error (e := .updateAfterFinal) (by rw [hlc]; rfl)
  · exact exec_of_error (e := .finalAfterFinal) (by rw [hlc]; rfl)

end Sys2Proof.Proofs.Rejection
end

section
/-! PROOF. Frames and what stands in the command stream (spec/30_encoding.md R70 to R79), and a run of the stream
(spec/20_memory.md R59). -/

namespace Sys2Proof.Proofs.Framing

open Sys2Proof.Machine
open Sys2Proof.Proofs.Decoder Sys2Proof.Proofs.Stream

/-! ### Reading a frame back from the stream -/

/-- R73, R181: the count that LEN's four bytes hold is serialized to these bytes. -/
theorem le32bytes_lenField (f1 f2 f3 f4 : Byte) :
    le32bytes (BitVec.ofNat 32 (lenField f1 f2 f3 f4)) = #v[f1, f2, f3, f4] := by
  rw [lenField, BitVec.ofNat_toNat, BitVec.setWidth_eq, ByteOrder.le32bytes_le32]

/-- R71, R78: behind the CMD byte of UPDATE nothing is an illegal frame. -/
theorem decodeUpdate_ne_illegal (r : List Byte) (b : Byte) (rest : List Byte) : decodeUpdate r ≠ .illegal b rest := by
  match r with
  | [] | [_] | [_, _] | [_, _, _] => exact Frame.noConfusion
  | f1 :: f2 :: f3 :: f4 :: body =>
    rw [decodeUpdate]
    split_ifs <;> exact Frame.noConfusion

/-- R71, R73: a complete UPDATE frame is the encoding of the command read from it, and LEN bounds the payload. -/
theorem decodeUpdate_eq_command {r : List Byte} {i : Instr} {rest : List Byte} (h : decodeUpdate r = .command i rest) :
    i.wellFormed = true ∧ 0x02 :: r = encode i ++ rest := by
  match r with
  | [] | [_] | [_, _] | [_, _, _] => cases h
  | f1 :: f2 :: f3 :: f4 :: body =>
    rcases Nat.lt_or_ge body.length (lenField f1 f2 f3 f4) with hlt | hle
    · cases (decodeUpdate_of_lt hlt).symm.trans h
    · obtain ⟨rfl, rfl⟩ := Frame.command.inj ((decodeUpdate_of_le hle).symm.trans h)
      have hlen : (body.take (lenField f1 f2 f3 f4)).length = lenField f1 f2 f3 f4 := List.length_take_of_le hle
      have hmax : lenField f1 f2 f3 f4 < 2 ^ 32 := BitVec.isLt _
      refine ⟨decide_eq_true (hlen.trans_le (Nat.le_sub_one_of_lt hmax)), ?_⟩
      rw [encode, hlen, le32bytes_lenField, List.cons_append, List.append_assoc, List.take_append_drop]
      rfl

/-- R72, R74: a command is read only where its encoding stands. -/
theorem decodeFrame_eq_command {bs : List Byte} {i : Instr} {rest : List Byte} (h : decodeFrame bs = .command i rest) :
    i.wellFormed = true ∧ bs = encode i ++ rest := by
  match bs with
  | [] => cases h
  | cmd :: r =>
    rw [decodeFrame] at h
    split_ifs at h with h1 h2 h3 h4 h5
    · cases h; exact ⟨rfl, by rw [h1]; rfl⟩
    · subst h2; exact decodeUpdate_eq_command h
    · cases h; exact ⟨rfl, by rw [h3]; rfl⟩
    · cases h; exact ⟨rfl, by rw [h4]; rfl⟩
    · cases h; exact ⟨rfl, by rw [h5]; rfl⟩

/-- R75: an illegal frame is the byte at the head of the stream, and that byte is no command's. -/
theorem decodeFrame_eq_illegal {bs : List Byte} {b : Byte} {rest : List Byte} (h : decodeFrame bs = .illegal b rest) :
    bs = b :: rest ∧ (b = 0 ∨ 6 ≤ b.toNat) := by
  match bs with
  | [] => cases h
  | cmd :: r =>
    rw [decodeFrame] at h
    split_ifs at h with h1 h2 h3 h4 h5
    · exact absurd h (decodeUpdate_ne_illegal r b rest)
    · cases h
      refine ⟨rfl, ?_⟩
      simp only [cmdInit, cmdUpdate, cmdFinal, cmdRdstatus, cmdRddigest] at h1 h2 h3 h4 h5
      bv_omega

/-- Settles O2: `decodeFrame_encode`. -/
theorem decodingAnEncodedCommandGivesItBack : Obligations.DecodingAnEncodedCommandGivesItBack := by
  unfold Obligations.DecodingAnEncodedCommandGivesItBack
  exact fun i rest hwf => decodeFrame_encode hwf rest

/-- Settles O3: a command is read where its encoding stands, an illegal frame where its byte stands. -/
theorem decodedFramesAreWhatTheStreamHolds : Obligations.DecodedFramesAreWhatTheStreamHolds := by
  unfold Obligations.DecodedFramesAreWhatTheStreamHolds
  exact ⟨fun bs i rest h => decodeFrame_eq_command h, fun bs b rest h => decodeFrame_eq_illegal h⟩

/-- Settles O1: each clause runs the decoder on the frame of one table word. -/
theorem tableWordsDecodeToTheirCommands : Obligations.TableWordsDecodeToTheirCommands := by
  unfold Obligations.TableWordsDecodeToTheirCommands
  decide

/-! ### Running the stream -/

/-- Settles O7: the stream's head decodes to the command it encodes. -/
theorem stepRunsTheDecodedCommand : Obligations.StepRunsTheDecodedCommand := by
  unfold Obligations.StepRunsTheDecodedCommand
  intro s i rest hwf hs
  exact step_of_command (hs ▸ decodeFrame_encode hwf rest)

/-- Settles O8: the commands do the same with the stream in place (`execAll_advance`), and `run_encodeAll` runs them
from it. -/
theorem streamRunIsTheFoldOfItsCommands : Obligations.StreamRunIsTheFoldOfItsCommands := by
  unfold Obligations.StreamRunIsTheFoldOfItsCommands
  intro is s t rest hwf hs h
  have hfold : execAll is s = .next (t.advance s.stream) := execAll_advance (s := s.advance []) s.stream h
  exact (run_encodeAll hwf hs hfold :)

/-! ### Bytes that arrive later -/

/-- R70: `s` with other command bytes and reset events waiting at its port. -/
def withPort (stream : List Byte) (resets : List (List Byte)) (s : State) : State :=
  { s with stream := stream, resets := resets }

/-- R70: what the host sends goes behind the stream while no reset event waits, and behind the last one otherwise. -/
theorem hostSend_eq_withPort (more : List Byte) (s : State) :
    s.hostSend more =
      withPort (s.stream ++ if s.resets = [] then more else []) (appendLast s.resets more) s := by
  cases hres : s.resets <;> simp [State.hostSend, withPort, hres, appendLast]

/-- R104: ABSORB does not see the port. -/
theorem absorb_withPort {v : Byte} {s t : State} (r : List Byte) (q : List (List Byte)) (h : absorb v s = some t) :
    absorb v (withPort r q s) = some (withPort r q t) := by
  rcases absorb_cases h with ⟨h0, rfl⟩ | ⟨h0, blk, hblk, rfl⟩
  · exact absorb_store (s := withPort r q s) h0
  · exact absorb_block (s := withPort r q s) h0 hblk

/-- R103: neither does UPDATE's loop. -/
theorem absorbAll_withPort {p : List Byte} {s t : State} (r : List Byte) (q : List (List Byte))
    (h : absorbAll p s = some t) : absorbAll p (withPort r q s) = some (withPort r q t) := by
  induction p generalizing s with
  | nil => exact congrArg (fun u => some (withPort r q u)) (Option.some.inj h)
  | cons v p ih =>
    rw [absorbAll] at h
    split at h
    · next u hu => rw [absorbAll, absorb_withPort r q hu]; exact ih h
    · cases h

/-- R59, R230: a command does the same whatever waits at the port, and leaves that in place; `exec_advance` is the case
of the stream alone. -/
theorem exec_withPort {i : Instr} {s t : State} (r : List Byte) (q : List (List Byte)) (h : exec i s = .next t) :
    exec i (withPort r q s) = .next (withPort r q t) := by
  rcases exec_cases h with ⟨e, he, rfl⟩ | ⟨rfl, rfl⟩ | ⟨p, u, rfl, hopen, hu, rfl⟩ |
    ⟨tail, rfl, hopen, htail, rfl⟩ | ⟨rfl, rfl⟩ | ⟨rfl, hlc, rfl⟩
  · exact exec_of_error (s := withPort r q s) he
  · exact exec_init (withPort r q s)
  · rw [exec_update_open (s := withPort r q s) hopen, absorbAll_withPort r q hu]
    rfl
  · have htail' : (withPort r q s).buf.readPrefix (withPort r q s).fill.toNat = some tail := htail
    rw [exec_final_open (s := withPort r q s) hopen, htail']
    rfl
  · exact exec_rdstatus (withPort r q s)
  · exact exec_rddigest_finalized (s := withPort r q s) hlc

/-- R59, R230: a command leaves its port as it is. -/
theorem exec_port {i : Instr} {s t : State} (h : exec i s = .next t) : t.stream = s.stream ∧ t.resets = s.resets := by
  have hsame : exec i s = .next (withPort s.stream s.resets t) := exec_withPort s.stream s.resets h
  have hport : withPort s.stream s.resets t = t := Host.Outcome.next.inj (hsame.symm.trans h)
  rw [← hport]
  exact ⟨rfl, rfl⟩

/-- R70: a complete frame is read the same with bytes behind it. -/
theorem decodeFrame_append_of_command {bs : List Byte} {i : Instr} {rest : List Byte}
    (h : decodeFrame bs = .command i rest) (more : List Byte) :
    decodeFrame (bs ++ more) = .command i (rest ++ more) := by
  obtain ⟨hwf, rfl⟩ := decodeFrame_eq_command h
  rw [List.append_assoc, decodeFrame_encode hwf]

/-- R75: so is an illegal byte. -/
theorem decodeFrame_append_of_illegal {bs : List Byte} {b : Byte} {rest : List Byte}
    (h : decodeFrame bs = .illegal b rest) (more : List Byte) :
    decodeFrame (bs ++ more) = .illegal b (rest ++ more) := by
  obtain ⟨rfl, hb⟩ := decodeFrame_eq_illegal h
  exact decodeFrame_illegal hb (rest ++ more)

/-- Settles O9: the frame at the head is read as before, and its command does not see the port (`exec_withPort`). -/
theorem laterBytesDoNotChangeAStep : Obligations.LaterBytesDoNotChangeAStep := by
  unfold Obligations.LaterBytesDoNotChangeAStep
  intro s t more hcomplete hstep
  rw [hostSend_eq_withPort more s, hostSend_eq_withPort more t]
  rcases step_cases hstep with ⟨i, rest, hframe, hexec⟩ | ⟨b, rest, hframe, rfl⟩ | ⟨_, _, hframe, -, -⟩
  · obtain ⟨hstream, hresets⟩ := exec_port hexec
    rw [step_of_command (decodeFrame_append_of_command hframe _), hstream, hresets]
    exact (exec_withPort (rest ++ _) (appendLast s.resets more) hexec :)
  · rw [step_of_illegal (decodeFrame_append_of_illegal hframe _)]
    rfl
  · exact absurd hframe hcomplete

end Sys2Proof.Proofs.Framing
end

section
/-! PROOF. What BUF holds after an UPDATE (spec/20_memory.md R53, spec/40_session.md R103, R104). -/

namespace Sys2Proof.Proofs.Buffering

open Sys2Proof.Machine Sys2Proof.Safety
open Sys2Proof.Proofs.Session Sys2Proof.Proofs.Streaming

/-- Settles O11: the loop over no bytes does nothing. -/
theorem emptyUpdateOnlyEntersAccumulating : Obligations.EmptyUpdateOnlyEntersAccumulating := by
  unfold Obligations.EmptyUpdateOnlyEntersAccumulating
  exact fun s hopen => exec_update_open hopen []

/-- R30: the valid bytes of BUF are fill in number. -/
theorem length_bufferedBytes {s : State} (h : BufHoldsFill s) : (bufferedBytes s).length = s.count.toNat % 64 := by
  rw [← s.fill_toNat]
  simpa [bufferedBytes] using congrArg List.length h

/-- R29, R30: BUF reads as the valid bytes in offset order, and holds no value behind them. -/
theorem readByte_eq_bufferedBytes {s : State} (h : BufHoldsFill s) (a : Nat) :
    s.buf.readByte a = (bufferedBytes s)[a]? :=
  Memory.readByte_range s.buf s.fill.toNat a h

/-- R53, R103: a payload that completes no block goes behind the valid bytes. -/
theorem exec_update_of_lt {s : State} {p : List Byte} (hopen : SessionOpen s) (hholds : BufHoldsFill s)
    (hlt : s.count.toNat % 64 + p.length < 64) :
    ∃ t, exec (.update p) s = .next t ∧ t.acc = s.acc ∧ BufHoldsFill t ∧
      bufferedBytes t = bufferedBytes s ++ p := by
  obtain ⟨t, ht, habs, -⟩ := exec_update_of_absorbed hopen (absorbed_bufferedBytes hholds) p
  have hdiv : (bufferedBytes s ++ p).length / 64 = 0 := by
    rw [List.length_append, length_bufferedBytes hholds]
    exact Nat.div_eq_of_lt hlt
  refine ⟨t, ht, ?_, habs.holds, ?_⟩
  · rw [habs.acc_eq, hdiv]
    rfl
  · rw [habs.bytes, hdiv]
    rfl

/-- Settles O13: BUF reads as the old valid bytes followed by the payload (`exec_update_of_lt`). -/
theorem updateStoresAtTheFillAndNowhereElse : Obligations.UpdateStoresAtTheFillAndNowhereElse := by
  unfold Obligations.UpdateStoresAtTheFillAndNowhereElse
  intro s p hopen hholds hlt
  obtain ⟨t, ht, hacc, hholds', hbytes⟩ := exec_update_of_lt hopen hholds hlt
  have hlen := length_bufferedBytes hholds
  have hoffset (k : Nat) (hk : k < p.length) : (s.count.toNat + k) % 64 = (bufferedBytes s).length + k := by omega
  refine ⟨t, ht, hacc, fun k hk => ?_, fun a ha => ?_⟩
  · rw [readByte_eq_bufferedBytes hholds', hbytes, hoffset k hk, List.getElem?_append_right (by omega),
      Nat.add_sub_cancel_left, List.getElem?_eq_getElem hk]
  · rw [readByte_eq_bufferedBytes hholds', readByte_eq_bufferedBytes hholds, hbytes]
    rcases Nat.lt_or_ge a (bufferedBytes s).length with hbelow | habove
    · exact List.getElem?_append_left hbelow
    · have hbehind : (bufferedBytes s).length + p.length ≤ a := by
        by_contra hin
        have hk : a - (bufferedBytes s).length < p.length := by omega
        exact ha _ hk (by rw [hoffset _ hk]; omega)
      rw [List.getElem?_eq_none (by rwa [List.length_append]), List.getElem?_eq_none habove]

/-- Settles O14: `absorb_of_bufHoldsFill` at fill 63, the block being the valid bytes and the last byte. -/
theorem sixtyFourthByteCompressesTheBlock : Obligations.SixtyFourthByteCompressesTheBlock := by
  unfold Obligations.SixtyFourthByteCompressesTheBlock
  intro s v hopen hholds hfill
  obtain ⟨u, hu, -, -, hblock⟩ := absorb_of_bufHoldsFill hholds v
  obtain ⟨hacc, hbuf⟩ := hblock (s.fill_toNat.trans hfill)
  obtain ⟨-, -, -, -, -, -, -, -, hcount⟩ := absorb_frame hu
  have hlen := (length_bufferedBytes hholds).trans hfill
  refine ⟨(u.setLc .accumulating).respond .ok, blockOfList (bufferedBytes s ++ [v]), ?_, fun j hj => ?_, ?_, hacc,
    hcount, fun a => ?_⟩
  · rw [exec_update_open hopen, absorbAll, hu]
    rfl
  · rw [readByte_eq_bufferedBytes hholds]
    simp [blockOfList, List.getD, hlen, hj]
  · simp [blockOfList, List.getD, hlen]
  · rw [State.respond_buf, State.setLc_buf, hbuf]
    rfl

end Sys2Proof.Proofs.Buffering
end

section
/-! PROOF. Which commands change the session's registers and the error status (spec/10_state.md R24, R28, R32 to
R34). -/

namespace Sys2Proof.Proofs.Frame

open Sys2Proof.Machine Sys2Proof.Safety
open Sys2Proof.Proofs.Stream

/-! ### The session's registers -/

/-- R24, R28, R34: `t` has the accumulator, COUNT, BUF, DIGEST and LC of `s`. -/
abbrev SameSession (s t : State) : Prop :=
  t.acc = s.acc ∧ t.count = s.count ∧ t.buf = s.buf ∧ t.digest = s.digest ∧ t.lc = s.lc

/-- R24, R28: only INIT and, in an open session, UPDATE and FINAL change the session. -/
theorem exec_sameSession {i : Instr} {s t : State} (h : exec i s = .next t) :
    SameSession s t ∨ i = .init ∨ (∃ p, i = .update p ∧ SessionOpen s) ∨ (i = .final ∧ SessionOpen s) := by
  rcases exec_cases h with ⟨e, -, rfl⟩ | ⟨rfl, -⟩ | ⟨p, u, rfl, hopen, -, -⟩ | ⟨tail, rfl, hopen, -, -⟩ |
    ⟨-, rfl⟩ | ⟨-, -, rfl⟩
  · exact .inl ⟨rfl, rfl, rfl, rfl, rfl⟩
  · exact .inr (.inl rfl)
  · exact .inr (.inr (.inl ⟨p, rfl, hopen⟩))
  · exact .inr (.inr (.inr ⟨rfl, hopen⟩))
  · exact .inl ⟨rfl, rfl, rfl, rfl, rfl⟩
  · exact .inl ⟨rfl, rfl, rfl, rfl, rfl⟩

/-- Settles O24: `exec_sameSession`. -/
theorem onlySessionCommandsChangeTheSession : Obligations.OnlySessionCommandsChangeTheSession := by
  unfold Obligations.OnlySessionCommandsChangeTheSession
  exact fun i s t h => exec_sameSession h

/-- R22: no session is open in Finalized. -/
theorem not_sessionOpen_of_finalized {s : State} (h : s.lc = .finalized) : ¬ SessionOpen s := by
  simp [SessionOpen, h]

/-- Settles O23: by `exec_sameSession` only INIT could change a register in Finalized, and INIT leaves Finalized, as a
reset event does. -/
theorem digestIsImmutableOnceProduced : Obligations.DigestIsImmutableOnceProduced := by
  unfold Obligations.DigestIsImmutableOnceProduced
  intro s t hlc hstep hlc'
  rcases step_cases hstep with ⟨i, rest, -, hexec⟩ | ⟨b, rest, -, rfl⟩ | ⟨seg, later, -, -, rfl⟩
  · have hclosed : ¬ SessionOpen (s.advance rest) := not_sessionOpen_of_finalized hlc
    rcases exec_sameSession hexec with ⟨hacc, hcount, -, hdigest, -⟩ | rfl | ⟨p, -, hopen⟩ | ⟨-, hopen⟩
    · exact ⟨hdigest, hacc, hcount⟩
    · cases (Lifecycle.exec_lc hexec).symm.trans hlc'
    · exact absurd hopen hclosed
    · exact absurd hopen hclosed
  · exact ⟨rfl, rfl, rfl⟩
  · cases hlc'

/-! ### The error status -/

/-- R32, R203: `t` is `s` with a rejection on ERR, ECODE and the responses. -/
def Rejected (s t : State) : Prop :=
  ∃ e : UsageError, t.responses = s.responses ++ [.err e.code] ∧ t.err = true ∧
    t.ecode = if s.err = true then s.ecode else e.code

/-- R32, R33: `t` has the error status of `s` and one more response, which is no error. -/
def Performed (s t : State) : Prop :=
  ∃ r : Response, (∀ code, r ≠ .err code) ∧ t.responses = s.responses ++ [r] ∧ t.err = s.err ∧ t.ecode = s.ecode

/-- R203: what a rejection does to the error status. -/
theorem rejected_raiseUsageError (e : UsageError) (s : State) : Rejected s (raiseUsageError e s) := ⟨e, rfl, rfl, rfl⟩

/-- R32, R203: a command is rejected or performed. -/
theorem exec_rejected_or_performed {i : Instr} {s t : State} (h : exec i s = .next t) :
    Rejected s t ∨ Performed s t := by
  rcases exec_cases h with ⟨e, -, rfl⟩ | ⟨-, rfl⟩ | ⟨p, u, -, -, hu, rfl⟩ | ⟨tail, -, -, -, rfl⟩ |
    ⟨-, rfl⟩ | ⟨-, -, rfl⟩
  · exact .inl (rejected_raiseUsageError e s)
  · exact .inr ⟨.ok, fun _ => Response.noConfusion, rfl, rfl, rfl⟩
  · obtain ⟨-, -, herr, hecode, -, -, hresp, -, -⟩ := absorbAll_frame hu
    exact .inr ⟨.ok, fun _ => Response.noConfusion, congrArg (· ++ _) hresp, herr, hecode⟩
  · exact .inr ⟨_, fun _ => Response.noConfusion, rfl, rfl, rfl⟩
  · exact .inr ⟨_, fun _ => Response.noConfusion, rfl, rfl, rfl⟩
  · exact .inr ⟨_, fun _ => Response.noConfusion, rfl, rfl, rfl⟩

/-- R201: the codes 6 and 7 are reserved. -/
theorem UsageError.code_le (e : UsageError) : e.code.toNat ≤ 5 := by
  cases e <;> decide

/-- R33: a rejection keeps ECODE legal. -/
theorem Rejected.ecode_le {s t : State} (h : Rejected s t) (hs : s.ecode.toNat ≤ 5) : t.ecode.toNat ≤ 5 := by
  obtain ⟨e, -, -, hecode⟩ := h
  rw [hecode]
  split_ifs
  · exact hs
  · exact UsageError.code_le e

/-- R33: so does a performed command. -/
theorem Performed.ecode_le {s t : State} (h : Performed s t) (hs : s.ecode.toNat ≤ 5) : t.ecode.toNat ≤ 5 := by
  obtain ⟨r, -, -, -, hecode⟩ := h
  rwa [hecode]

/-- R32, R230: a step rejects a frame, performs one, or is a reset event. -/
theorem step_errorStatus {s t : State} (h : step s = .next t) :
    Rejected s t ∨ Performed s t ∨
      ∃ seg later, decodeFrame s.stream = .incomplete ∧ s.resets = seg :: later ∧ t = resetEvent seg later s := by
  rcases step_cases h with ⟨i, rest, -, hexec⟩ | ⟨b, rest, -, rfl⟩ | hreset
  · rcases exec_rejected_or_performed hexec with hrej | hperf
    · exact .inl hrej
    · exact .inr (.inl hperf)
  · exact .inl (rejected_raiseUsageError .illegalCommand (s.advance rest))
  · exact .inr (.inr hreset)

/-- Settles O22: the three kinds of step of `step_errorStatus`. -/
theorem onlyResetClearsTheErrorStatus : Obligations.OnlyResetClearsTheErrorStatus := by
  unfold Obligations.OnlyResetClearsTheErrorStatus
  intro s t hstep
  rcases step_errorStatus hstep with hrej | hperf | ⟨seg, later, hinc, hres, rfl⟩
  · have hlegal := hrej.ecode_le
    obtain ⟨e, hresp, herr, hecode⟩ := hrej
    exact ⟨.inl ⟨e.code, hresp, herr, hecode⟩, hlegal⟩
  · exact ⟨.inr (.inl hperf), hperf.ecode_le⟩
  · exact ⟨.inr (.inr ⟨hinc, by simp [hres], rfl, rfl, rfl⟩), fun _ => Nat.zero_le _⟩

end Sys2Proof.Proofs.Frame
end

section
/-! PROOF. Reset (spec/70_reset_and_hazards.md R230, R231) and the invariant between commands (spec/10_state.md R22, R30
to R34). -/

namespace Sys2Proof.Proofs.Invariant

open Sys2Proof.Machine Sys2Proof.Safety
open Sys2Proof.Proofs.Stream

/-! ### Reset -/

/-- Settles O25: each clause reads a field of the reset state, and its empty stream is no frame. -/
theorem resetLeavesTheEngineIdle : Obligations.ResetLeavesTheEngineIdle := by
  unfold Obligations.ResetLeavesTheEngineIdle
  exact ⟨rfl, rfl, rfl, by decide, fun _ => rfl, rfl⟩

/-- R230: a waiting reset event lands when no complete frame is left. -/
theorem step_of_reset {s : State} {seg : List Byte} {later : List (List Byte)}
    (hinc : decodeFrame s.stream = .incomplete) (hres : s.resets = seg :: later) :
    step s = .next (resetEvent seg later s) := by
  rw [step_of_incomplete hinc, waitForBytes, hres]

/-- R230, R31: a reset event leaves STATUS 0x00. -/
theorem resetEvent_status (seg : List Byte) (later : List (List Byte)) (s : State) :
    (resetEvent seg later s).status = 0x00 :=
  State.status_congr (resetEvent seg later s) State.reset rfl rfl rfl

/-- Settles O26: the step is `resetEvent`, which has these fields. -/
theorem resetEventDiscardsTheIncompleteFrame : Obligations.ResetEventDiscardsTheIncompleteFrame := by
  unfold Obligations.ResetEventDiscardsTheIncompleteFrame
  intro s seg later hinc hres
  exact ⟨resetEvent seg later s, step_of_reset hinc hres, rfl, rfl, rfl, resetEvent_status seg later s, fun _ => rfl,
    rfl, rfl, rfl⟩

/-! ### What meets the invariant -/

/-- R230: an engine in Idle with an empty BUF and no error meets the invariant, whatever its port holds. -/
theorem inv_of_idle {s : State} (hlc : s.lc = .idle) (hbuf : s.buf = []) (herr : s.err = false) (hecode : s.ecode = 0) :
    Inv s where
  buf_wf := hbuf ▸ Memory.noValues_wf
  buf_holds hopen := by simp [SessionOpen, hlc] at hopen
  buf_empty _ := hbuf
  fresh_start hfresh := by simp [hlc] at hfresh
  digest_valid hfin := by simp [hlc] at hfin
  ecode_zero := by simp [herr, hecode]
  ecode_legal := by simp [hecode]

/-- Settles O27. -/
theorem resetMeetsTheInvariant : Obligations.ResetMeetsTheInvariant := by
  unfold Obligations.ResetMeetsTheInvariant
  exact inv_of_idle rfl rfl rfl rfl

/-- R70: consuming a frame keeps the invariant, which does not speak of the port. -/
theorem inv_advance {s : State} (h : Inv s) (rest : List Byte) : Inv (s.advance rest) :=
  { h with }

/-- R80: so does a response. -/
theorem inv_respond {s : State} (h : Inv s) (r : Response) : Inv (s.respond r) :=
  { h with }

/-- R201: no usage error has the code 0. -/
theorem UsageError.code_ne_zero (e : UsageError) : e.code ≠ 0 := by
  cases e <;> decide

/-- R33, R203: a rejection sets ERR and leaves a legal ECODE other than 0. -/
theorem inv_raiseUsageError {s : State} (h : Inv s) (e : UsageError) : Inv (raiseUsageError e s) :=
  { h with
    ecode_zero := by
      refine iff_of_false Bool.noConfusion ?_
      rw [raiseUsageError_ecode]
      split_ifs with herr
      · exact fun hzero => Bool.noConfusion (herr.symm.trans (h.ecode_zero.mpr hzero))
      · exact UsageError.code_ne_zero e
    ecode_legal := (Frame.rejected_raiseUsageError e s).ecode_le h.ecode_legal }

/-- R102: INIT begins a session with nothing absorbed. -/
theorem inv_beginSession {s : State} (h : Inv s) : Inv (beginSession s) where
  buf_wf := Memory.noValues_wf
  buf_holds _ := rfl
  buf_empty _ := rfl
  fresh_start _ := ⟨rfl, rfl⟩
  digest_valid := nofun
  ecode_zero := h.ecode_zero
  ecode_legal := h.ecode_legal

/-- R30, R103: UPDATE's loop leaves exactly fill bytes in BUF, and UPDATE enters Accumulating. -/
theorem inv_absorbAll {p : List Byte} {s u : State} (h : Inv s) (hopen : SessionOpen s) (hu : absorbAll p s = some u) :
    Inv (u.setLc .accumulating) := by
  obtain ⟨t, ht, hholds⟩ := absorbAll_of_bufHoldsFill (h.buf_holds hopen) p
  obtain rfl : u = t := Option.some.inj (hu.symm.trans ht)
  obtain ⟨-, -, herr, hecode, -, -, -, -, -⟩ := absorbAll_frame hu
  exact
    { buf_wf := Memory.wf_of_range u.buf u.fill.toNat u.fill_lt.le hholds
      buf_holds := fun _ => hholds
      buf_empty := fun hclosed => absurd (.inr rfl) hclosed
      fresh_start := nofun
      digest_valid := nofun
      ecode_zero := by rw [State.setLc_err, State.setLc_ecode, herr, hecode]; exact h.ecode_zero
      ecode_legal := by rw [State.setLc_ecode, hecode]; exact h.ecode_legal }

/-- R34, R107: FINAL latches the serialized accumulator and empties BUF. -/
theorem inv_finishSession {n : Nat} {s : State} (h : Inv s) (tail : Vector Byte n) (hn : n < 64) :
    Inv (finishSession tail hn s) where
  buf_wf := Memory.noValues_wf
  buf_holds hopen := absurd hopen (Frame.not_sessionOpen_of_finalized rfl)
  buf_empty _ := rfl
  fresh_start := nofun
  digest_valid _ := rfl
  ecode_zero := h.ecode_zero
  ecode_legal := h.ecode_legal

/-! ### Steps -/

/-- Every command keeps the invariant. -/
theorem exec_keeps_inv {i : Instr} {s t : State} (h : Inv s) (hexec : exec i s = .next t) : Inv t := by
  rcases exec_cases hexec with ⟨e, -, rfl⟩ | ⟨-, rfl⟩ | ⟨p, u, -, hopen, hu, rfl⟩ | ⟨tail, -, -, -, rfl⟩ | ⟨-, rfl⟩ |
    ⟨-, -, rfl⟩
  · exact inv_raiseUsageError h e
  · exact inv_respond (inv_beginSession h) _
  · exact inv_respond (inv_absorbAll h hopen hu) _
  · exact inv_respond (inv_finishSession h tail s.fill.isLt) _
  · exact inv_respond h _
  · exact inv_respond h _

/-- Settles O28: `exec_keeps_inv` for a command, and a rejection or R230's reset state otherwise. -/
theorem stepKeepsTheInvariant : Obligations.StepKeepsTheInvariant := by
  unfold Obligations.StepKeepsTheInvariant
  intro s t h hstep
  rcases step_cases hstep with ⟨i, rest, -, hexec⟩ | ⟨b, rest, -, rfl⟩ | ⟨seg, later, -, -, rfl⟩
  · exact exec_keeps_inv (inv_advance h rest) hexec
  · exact inv_raiseUsageError (inv_advance h rest) .illegalCommand
  · exact inv_of_idle rfl rfl rfl rfl

/-- I12: under the invariant every command answers a next state, since UPDATE and FINAL find fill bytes in BUF. -/
theorem exec_of_inv {s : State} (h : Inv s) (i : Instr) : ∃ t, exec i s = .next t := by
  cases hlegal : legality i s.lc with
  | some e => exact ⟨_, exec_of_error hlegal⟩
  | none =>
    cases i with
    | init => exact ⟨_, exec_init s⟩
    | update p =>
      have hopen : SessionOpen s := open_of_legal_update hlegal
      obtain ⟨u, hu, -⟩ := absorbAll_of_bufHoldsFill (h.buf_holds hopen) p
      exact ⟨_, by rw [exec_update_open hopen, hu]⟩
    | final =>
      have hopen : SessionOpen s := open_of_legal_final hlegal
      obtain ⟨tail, -, hfinal⟩ := Streaming.exec_final_of_bufHoldsFill hopen (h.buf_holds hopen)
      exact ⟨_, hfinal⟩
    | rdstatus => exact ⟨_, exec_rdstatus s⟩
    | rddigest => exact ⟨_, exec_rddigest_finalized (finalized_of_legal_rddigest hlegal)⟩

/-- Settles O29: a complete frame runs by `exec_of_inv` or is rejected, and behind an incomplete one a reset event
lands. -/
theorem noValueIsNeverRead : Obligations.NoValueIsNeverRead := by
  unfold Obligations.NoValueIsNeverRead
  intro s h hready
  cases hframe : decodeFrame s.stream with
  | command i rest =>
    rw [step_of_command hframe]
    exact exec_of_inv (inv_advance h rest) i
  | illegal b rest => exact ⟨_, step_of_illegal hframe⟩
  | incomplete =>
    obtain ⟨seg, later, hres⟩ := List.exists_cons_of_ne_nil (hready.resolve_left (not_not_intro hframe))
    exact ⟨_, step_of_reset hframe hres⟩

end Sys2Proof.Proofs.Invariant
end

section
/-! PROOF. What the spec calls no value is not observed (spec/10_state.md R29, spec/70_reset_and_hazards.md R230, R241):
two runs from states that agree on everything that holds a value go on agreeing. -/

namespace Sys2Proof.Proofs.Undefined

open Sys2Proof.Machine Sys2Proof.Safety
open Sys2Proof.Proofs.Stream

/-! ### A BUF in any form

`SameDefined` says nothing of how BUF is listed, so a read after a write is needed without `Memory.wf`. -/

/-- A read after a write of one cell; a write goes in front of every cell that could hide it, in any list of cells. -/
theorem readByte_writeCell_any (m : Memory) (a : Nat) (v : Byte) (x : Nat) :
    (m.writeCell a v).readByte x = if x = a then some v else m.readByte x := by
  induction m with
  | nil => simp [Memory.writeCell, Memory.readByte, eq_comm]
  | cons c m ih =>
    obtain ⟨k, b⟩ := c
    rw [Memory.writeCell]
    rcases Nat.lt_trichotomy a k with hlt | rfl | hgt
    · simp [hlt, Memory.readByte, eq_comm]
    · simp only [lt_irrefl, if_false, if_true, Memory.readByte, eq_comm (a := a)]
      split_ifs <;> rfl
    · rw [if_neg hgt.not_gt, if_neg hgt.ne', Memory.readByte, Memory.readByte, ih]
      by_cases hx : x = a
      · rw [if_pos hx, if_pos hx, if_neg (hx ▸ hgt.ne)]
      · rw [if_neg hx, if_neg hx]

/-- Writing the same byte behind the offsets on which two BUFs agree extends their agreement by its offset. -/
theorem readByte_writeByte_agree {m m' : Memory} {f : BitVec 6} (h : ∀ a, a < f.toNat → m.readByte a = m'.readByte a)
    (v : Byte) (a : Nat) (ha : a < f.toNat + 1) : (m.writeByte f v).readByte a = (m'.writeByte f v).readByte a := by
  rw [Memory.writeByte, Memory.writeByte, readByte_writeCell_any, readByte_writeCell_any]
  split_ifs with heq
  · rfl
  · exact h a (by omega)

/-! ### Observing -/

/-- R241: STATUS and the responses hold a value always, DIGEST in Finalized, and nothing else is observed. -/
theorem observe_eq_of_sameDefined {s t : State} (h : SameDefined s t) : s.observe = t.observe := by
  have hdigest : (if s.lc = .finalized then some s.digest else none) =
      if t.lc = .finalized then some t.digest else none := by
    rw [← h.lc]
    split_ifs with hfin
    · rw [h.digest hfin]
    · rfl
  simp only [State.observe, h.responses, State.status_congr s t h.lc h.err h.ecode, hdigest]

/-! ### The operations on two states that agree -/

/-- R22: an open session is not in Idle. -/
theorem ne_idle_of_sessionOpen {s : State} (h : SessionOpen s) : s.lc ≠ .idle := by
  rcases h with hlc | hlc <;> simp [hlc]

/-- R22: LC holds a value always. -/
theorem sessionOpen_of_sameDefined {s t : State} (h : SameDefined s t) (hopen : SessionOpen s) : SessionOpen t := by
  rwa [SessionOpen, ← h.lc]

/-- In an open session COUNT holds a value, so fill does. -/
theorem fill_eq_of_sameDefined {s t : State} (h : SameDefined s t) (hopen : SessionOpen s) : s.fill = t.fill :=
  State.fill_congr s t (h.count (ne_idle_of_sessionOpen hopen))

theorem sameDefined_advance {s t : State} (h : SameDefined s t) (rest : List Byte) :
    SameDefined (s.advance rest) (t.advance rest) :=
  { h with stream := rfl }

theorem sameDefined_respond {s t : State} (h : SameDefined s t) (r : Response) :
    SameDefined (s.respond r) (t.respond r) :=
  { h with responses := congrArg (· ++ [r]) h.responses }

theorem sameDefined_raiseUsageError {s t : State} (h : SameDefined s t) (e : UsageError) :
    SameDefined (raiseUsageError e s) (raiseUsageError e t) :=
  { h with
    err := rfl
    ecode := by rw [raiseUsageError_ecode, raiseUsageError_ecode, h.err, h.ecode]
    responses := by rw [raiseUsageError_responses, raiseUsageError_responses, h.responses] }

/-- R102: INIT gives every register a value but DIGEST. -/
theorem sameDefined_beginSession {s t : State} (h : SameDefined s t) : SameDefined (beginSession s) (beginSession t) :=
  { h with
    lc := rfl
    acc := fun _ => rfl
    count := fun _ => rfl
    buf := fun _ _ _ => rfl
    digest := nofun }

/-- R230: a reset event gives values that depend on nothing before it. -/
theorem sameDefined_resetEvent {s t : State} (h : SameDefined s t) (seg : List Byte) (later : List (List Byte)) :
    SameDefined (resetEvent seg later s) (resetEvent seg later t) where
  lc := rfl
  err := rfl
  ecode := rfl
  stream := rfl
  resets := rfl
  responses := h.responses
  acc _ := rfl
  count _ := rfl
  buf _ _ _ := rfl
  digest _ := rfl

/-- R107: FINAL computes from the valid bytes, COUNT and the accumulator. -/
theorem sameDefined_finishSession {n : Nat} {s t : State} (h : SameDefined s t) (hopen : SessionOpen s)
    (tail : Vector Byte n) (hn : n < 64) : SameDefined (finishSession tail hn s) (finishSession tail hn t) := by
  have hidle := ne_idle_of_sessionOpen hopen
  have hacc : (finishSession tail hn s).acc = (finishSession tail hn t).acc := by
    rw [finishSession_acc, finishSession_acc, h.count hidle, h.acc hidle]
  exact
    { h with
      lc := rfl
      acc := fun _ => hacc
      count := fun _ => h.count hidle
      buf := fun _ _ _ => rfl
      digest := fun _ => congrArg serializeDigest hacc }

/-- R103: UPDATE moves an open session to Accumulating, where the same registers hold a value. -/
theorem sameDefined_setLc_accumulating {s t : State} (h : SameDefined s t) (hopen : SessionOpen s) :
    SameDefined (s.setLc .accumulating) (t.setLc .accumulating) :=
  { h with
    lc := rfl
    acc := fun _ => h.acc (ne_idle_of_sessionOpen hopen)
    count := fun _ => h.count (ne_idle_of_sessionOpen hopen)
    buf := fun _ => h.buf hopen
    digest := nofun }

/-- R29: two states of one open session that agree on everything that holds a value. -/
abbrev SameOpen (s t : State) : Prop := SameDefined s t ∧ SessionOpen s

/-- R104: ABSORB in an open session, where the byte it stores and the block it may complete hold values in both states
or in neither. -/
theorem absorb_sameOpen {s t : State} (hst : SameOpen s t) (v : Byte) :
    Option.Rel SameOpen (absorb v s) (absorb v t) := by
  obtain ⟨h, hopen⟩ := hst
  have hidle := ne_idle_of_sessionOpen hopen
  have hcount : s.count = t.count := h.count hidle
  have hstored (a : Nat) (ha : a < s.fill.toNat + 1) :
      (s.buf.writeByte s.fill v).readByte a = (t.buf.writeByte t.fill v).readByte a := by
    rw [← fill_eq_of_sameDefined h hopen]
    exact readByte_writeByte_agree (h.buf hopen) v a ha
  have hsucc : ((s.count + 1).extractLsb' 0 6).toNat = (s.fill.toNat + 1) % 64 := fill_succ s _ rfl
  by_cases hfull : (s.count + 1).extractLsb' 0 6 = 0
  · have hfull' : (t.count + 1).extractLsb' 0 6 = 0 := hcount ▸ hfull
    have hfill : s.fill.toNat + 1 = 64 := by
      rw [hfull] at hsucc
      have := s.fill_lt
      simp at hsucc
      omega
    have hread := Memory.readPrefix_congr _ _ 64 (hfill ▸ hstored)
    cases hblk : (s.buf.writeByte s.fill v).readPrefix 64 with
    | none =>
      rw [absorb_none hfull hblk, absorb_none hfull' (hread.symm.trans hblk)]
      exact .none
    | some blk =>
      rw [absorb_block hfull hblk, absorb_block hfull' (hread.symm.trans hblk)]
      have hcount' : s.count + 1 = t.count + 1 := congrArg (· + 1) hcount
      refine .some ⟨{ h with acc := fun _ => ?_, count := fun _ => hcount', buf := fun _ _ _ => rfl }, hopen⟩
      exact congrArg (compress · blk) (h.acc hidle)
  · rw [absorb_store hfull, absorb_store (hcount ▸ hfull)]
    refine .some ⟨{ h with count := fun _ => congrArg (· + 1) hcount, buf := fun _ a ha => hstored a ?_ }, hopen⟩
    exact ha.trans_le (hsucc.trans_le (Nat.mod_le _ _))

/-- R103: so does UPDATE's loop. -/
theorem absorbAll_sameOpen {s t : State} (h : SameOpen s t) (p : List Byte) :
    Option.Rel SameOpen (absorbAll p s) (absorbAll p t) := by
  induction p generalizing s t with
  | nil => exact .some h
  | cons v p ih =>
    have hrel := absorb_sameOpen h v
    rw [absorbAll, absorbAll]
    generalize absorb v s = o, absorb v t = o' at hrel
    cases hrel with
    | none => exact .none
    | some h => exact ih h

/-- R107: FINAL, with fill called `f`, finishes the session with the valid bytes. -/
theorem exec_final_of_some {s : State} {f : BitVec 6} {tail : Vector Byte f.toNat} (hopen : SessionOpen s)
    (hfill : s.fill = f) (htail : s.buf.readPrefix f.toNat = some tail) :
    exec .final s = .next ((finishSession tail f.isLt s).respond (.okDigest (finishSession tail f.isLt s).digest)) := by
  subst hfill
  rw [exec_final_open hopen, htail]

/-- I12: FINAL stops where an offset below fill holds no value. -/
theorem exec_final_of_none {s : State} {f : BitVec 6} (hopen : SessionOpen s) (hfill : s.fill = f)
    (htail : s.buf.readPrefix f.toNat = none) : exec .final s = .fault .noValueRead := by
  subst hfill
  rw [exec_final_open hopen, htail]

/-! ### Steps -/

/-- R241: two answers of the engine that a host cannot tell apart: both states agree, or both stops are the same. -/
inductive SameAnswer : StepResult → StepResult → Prop
  | next {s t : State} (h : SameDefined s t) : SameAnswer (.next s) (.next t)
  | fault (f : Fault) : SameAnswer (.fault f) (.fault f)

/-- An answer like a next state is a next state that agrees with it. -/
theorem SameAnswer.of_next {s' : State} {r : StepResult} (h : SameAnswer (.next s') r) :
    ∃ t', r = .next t' ∧ SameDefined s' t' := by
  cases h with
  | next h => exact ⟨_, rfl, h⟩

/-- An answer like a stop is that stop. -/
theorem SameAnswer.of_fault {f : Fault} {r : StepResult} (h : SameAnswer (.fault f) r) : r = .fault f := by
  cases h with
  | fault => rfl

/-- R29, R230: a command answers the same from two states that agree. -/
theorem exec_sameAnswer {s t : State} (h : SameDefined s t) (i : Instr) : SameAnswer (exec i s) (exec i t) := by
  cases hlegal : legality i s.lc with
  | some e =>
    rw [exec_of_error hlegal, exec_of_error (h.lc ▸ hlegal)]
    exact .next (sameDefined_raiseUsageError h e)
  | none =>
    cases i with
    | init =>
      rw [exec_init, exec_init]
      exact .next (sameDefined_respond (sameDefined_beginSession h) _)
    | update p =>
      have hopen : SessionOpen s := open_of_legal_update hlegal
      have hopen' : SessionOpen t := sessionOpen_of_sameDefined h hopen
      have hrel := absorbAll_sameOpen ⟨h, hopen⟩ p
      rw [exec_update_open hopen, exec_update_open hopen']
      generalize absorbAll p s = o, absorbAll p t = o' at hrel
      cases hrel with
      | none => exact .fault _
      | some hst => exact .next (sameDefined_respond (sameDefined_setLc_accumulating hst.1 hst.2) _)
    | final =>
      have hopen : SessionOpen s := open_of_legal_final hlegal
      have hopen' : SessionOpen t := sessionOpen_of_sameDefined h hopen
      have hfill := fill_eq_of_sameDefined h hopen
      have hread : s.buf.readPrefix s.fill.toNat = t.buf.readPrefix s.fill.toNat :=
        Memory.readPrefix_congr _ _ _ (h.buf hopen)
      cases htail : s.buf.readPrefix s.fill.toNat with
      | none =>
        rw [exec_final_of_none hopen rfl htail, exec_final_of_none hopen' hfill.symm (hread.symm.trans htail)]
        exact .fault _
      | some tail =>
        have hfinish := sameDefined_finishSession h hopen tail s.fill.isLt
        rw [exec_final_of_some hopen rfl htail, exec_final_of_some hopen' hfill.symm (hread.symm.trans htail),
          hfinish.digest rfl]
        exact .next (sameDefined_respond hfinish _)
    | rdstatus =>
      rw [exec_rdstatus, exec_rdstatus, State.status_congr s t h.lc h.err h.ecode]
      exact .next (sameDefined_respond h _)
    | rddigest =>
      have hfin : s.lc = .finalized := finalized_of_legal_rddigest hlegal
      rw [exec_rddigest_finalized hfin, exec_rddigest_finalized (h.lc ▸ hfin), h.digest hfin]
      exact .next (sameDefined_respond h _)

/-- R29, R230: so does a step, since the port holds a value always. -/
theorem step_sameAnswer {s t : State} (h : SameDefined s t) : SameAnswer (step s) (step t) := by
  cases hframe : decodeFrame s.stream with
  | command i rest =>
    rw [step_of_command hframe, step_of_command (h.stream ▸ hframe)]
    exact exec_sameAnswer (sameDefined_advance h rest) i
  | illegal b rest =>
    rw [step_of_illegal hframe, step_of_illegal (h.stream ▸ hframe)]
    exact .next (sameDefined_raiseUsageError (sameDefined_advance h rest) .illegalCommand)
  | incomplete =>
    rw [step_of_incomplete hframe, step_of_incomplete (h.stream ▸ hframe), waitForBytes, waitForBytes, ← h.resets,
      ← h.stream]
    cases s.resets with
    | cons seg later => exact .next (sameDefined_resetEvent h seg later)
    | nil => cases s.stream <;> exact .fault _

/-- Settles O30: the observation by `observe_eq_of_sameDefined`, the step by `step_sameAnswer`. -/
theorem undefinedValuesAreUnobservable : Obligations.UndefinedValuesAreUnobservable := by
  unfold Obligations.UndefinedValuesAreUnobservable
  intro s t h
  have hanswer := step_sameAnswer h
  refine ⟨observe_eq_of_sameDefined h, fun s' hs => ?_, fun f hs => ?_⟩
  · rw [hs] at hanswer
    exact hanswer.of_next
  · rw [hs] at hanswer
    exact hanswer.of_fault

end Sys2Proof.Proofs.Undefined
end

section
/-! PROOF. The rounds' rotation amounts and message words (spec/41_compression.md R148, R150, R151). -/

namespace Sys2Proof.Proofs.Schedule

open Sys2Proof.Machine

/-- R7, R148: a bit that stays within the word comes from the left shift, a bit that wraps from the right shift. -/
theorem getLsbD_rotl32 (x : Word) {n k : Nat} (hn : n ≤ 31) (hk : k < 32) :
    (rotl32 x n).getLsbD ((k + n) % 32) = x.getLsbD k := by
  rw [rotl32, BitVec.getLsbD_or, BitVec.getLsbD_shiftLeft, BitVec.getLsbD_ushiftRight]
  by_cases hwrap : k + n < 32
  · have hhigh : x.getLsbD (32 - n + (k + n)) = false := x.getLsbD_of_ge _ (by omega)
    simp [Nat.mod_eq_of_lt hwrap, hwrap, hhigh]
  · have hmod : (k + n) % 32 = k + n - 32 := by omega
    have hback : 32 - n + (k + n - 32) = k := by omega
    have hlow : k + n - 32 < n := by omega
    simp [hmod, hback, hlow]

/-- Settles O36: `getLsbD_rotl32`. -/
theorem rotationWrapsWithinTheWord : Obligations.RotationWrapsWithinTheWord := by
  unfold Obligations.RotationWrapsWithinTheWord
  exact fun x n k _ hn hk => getLsbD_rotl32 x hn hk

/-- R151: the round of pass `p` that reads message word `i`, by the inverses modulo 16 of the closed forms of `permOf`:
5 * 13, 3 * 11 and 7 * 7 are 1 modulo 16. -/
def readingRound (p : Fin 4) (i : Fin 16) : Fin 64 :=
  match p with
  | 0 => Fin.ofNat 64 i.val
  | 1 => Fin.ofNat 64 (16 + (13 * (i.val + 15)) % 16)
  | 2 => Fin.ofNat 64 (32 + (11 * (i.val + 11)) % 16)
  | 3 => Fin.ofNat 64 (48 + (7 * i.val) % 16)

/-- R143: the pass of a round. -/
def passOf (r : Fin 64) : Fin 4 := ⟨r.val / 16, by omega⟩

/-- R151: the round found reads the word, in the pass asked for. -/
theorem permOf_readingRound : ∀ (p : Fin 4) (i : Fin 16),
    (readingRound p i).val / 16 = p.val ∧ permOf (readingRound p i) = i := by
  decide

/-- R151: every round is the one found for its pass and its word. -/
theorem readingRound_permOf : ∀ r : Fin 64, readingRound (passOf r) (permOf r) = r := by
  decide

/-- R148, R150: the amounts lie within 4 to 23. -/
theorem shiftOf_bounds : ∀ r : Fin 64, 4 ≤ shiftOf r ∧ shiftOf r ≤ 23 := by
  decide

/-- R150: the amounts depend on the pass and `r mod 4`. -/
theorem shiftOf_congr {r r' : Fin 64} (hpass : r.val / 16 = r'.val / 16) (hmod : r.val % 4 = r'.val % 4) :
    shiftOf r = shiftOf r' := by
  simp only [shiftOf, hpass, hmod]

/-- Settles O38: `readingRound` is the round that reads a word in a pass, and the only one. -/
theorem eachPassReadsEveryMessageWordOnce : Obligations.EachPassReadsEveryMessageWordOnce := by
  unfold Obligations.EachPassReadsEveryMessageWordOnce
  refine ⟨shiftOf_bounds, fun r r' hpass hmod => shiftOf_congr hpass hmod, fun p i => ?_⟩
  obtain ⟨hpass, hword⟩ := permOf_readingRound p i
  refine ⟨readingRound p i, hpass, hword, fun r hpass' hword' => ?_⟩
  have hp : passOf r = p := Fin.ext hpass'
  rw [← hp, ← hword', readingRound_permOf]

end Sys2Proof.Proofs.Schedule
end

section
/-! PROOF. The printed line of a frame is read back and assembles to the frame (spec/30_encoding.md R82, R84). -/

namespace Sys2Proof.Proofs.Disassembly

open Sys2Proof.Machine
open Sys2Proof.Proofs.HashLine (assembleUpdate_of_wellFormed parseTokens_update parseTokens_hash)

/-! ### A line of words -/

/-- A character that begins a word where nothing is under way. -/
def isWordChar (c : Char) : Bool := lexGap [] c = ⟨[], .word [c]⟩

/-- A word as the reader takes it: not empty, and of word characters only. -/
abbrev IsWord (w : List Char) : Prop := w ≠ [] ∧ w.all isWordChar = true

/-- A word character is no white space and no mark of R82: it begins a word in a gap and goes on with a word. -/
theorem lexChar_of_wordChar {c : Char} (h : isWordChar c = true) :
    (∀ ts, lexChar ⟨ts, .gap⟩ c = ⟨ts, .word [c]⟩) ∧ ∀ ts rev, lexChar ⟨ts, .word rev⟩ c = ⟨ts, .word (c :: rev)⟩ := by
  have hgap : lexGap [] c = ⟨[], .word [c]⟩ := of_decide_eq_true h
  rw [lexGap] at hgap
  split_ifs at hgap with hblank hcomment hstring hstar
  · cases hgap
  · cases hgap
  · cases hgap
  · cases hgap
  · simp [lexChar, lexGap, hblank, hcomment, hstring, hstar]

/-- A space ends a word. -/
theorem lexChar_word_space (ts : List Token) (rev : List Char) :
    lexChar ⟨ts, .word rev⟩ ' ' = ⟨.word rev.reverse :: ts, .gap⟩ := rfl

/-- Word characters go on with the word under way. -/
theorem foldl_lexChar_word {w : List Char} (h : w.all isWordChar = true) (ts : List Token) (rev : List Char) :
    w.foldl lexChar ⟨ts, .word rev⟩ = ⟨ts, .word (w.reverse ++ rev)⟩ := by
  induction w generalizing rev with
  | nil => rfl
  | cons c w ih =>
    obtain ⟨hc, hw⟩ := (Bool.and_eq_true _ _).mp h
    rw [List.foldl_cons, (lexChar_of_wordChar hc).2, ih hw, List.reverse_cons, List.append_assoc]
    rfl

/-- A word read from its start is the word under way. -/
theorem foldl_lexChar_gap {w : List Char} (h : IsWord w) (ts : List Token) :
    w.foldl lexChar ⟨ts, .gap⟩ = ⟨ts, .word w.reverse⟩ := by
  obtain ⟨hne, hw⟩ := h
  obtain ⟨c, w, rfl⟩ := List.exists_cons_of_ne_nil hne
  obtain ⟨hc, hw⟩ := (Bool.and_eq_true _ _).mp hw
  rw [List.foldl_cons, (lexChar_of_wordChar hc).1, foldl_lexChar_word hw, List.reverse_cons]

/-- Words each behind one space, read behind a word `w`: the last of them is under way, the others are tokens. -/
theorem foldl_lexChar_words {ws : List (List Char)} (h : ∀ w ∈ ws, IsWord w) (ts : List Token) (w : List Char) :
    ∃ ts' last, (ws.map (' ' :: ·)).flatten.foldl lexChar ⟨ts, .word w.reverse⟩ = ⟨ts', .word last⟩ ∧
      (.word last.reverse :: ts').reverse = ts.reverse ++ .word w :: ws.map .word := by
  induction ws generalizing ts w with
  | nil => exact ⟨ts, w.reverse, rfl, by simp⟩
  | cons v ws ih =>
    obtain ⟨hv, hws⟩ := List.forall_mem_cons.mp h
    obtain ⟨ts', last, hfold, htokens⟩ := ih hws (.word w :: ts) v
    refine ⟨ts', last, ?_, by simpa using htokens⟩
    rw [List.map_cons, List.flatten_cons, List.foldl_append, List.foldl_cons, lexChar_word_space, foldl_lexChar_gap hv,
      List.reverse_reverse]
    exact hfold

/-- A line of words, one space between each and the next, is these words. -/
theorem tokenize_words {w : List Char} {ws : List (List Char)} (hw : IsWord w) (hws : ∀ v ∈ ws, IsWord v) :
    tokenize (w ++ (ws.map (' ' :: ·)).flatten) = some (.word w :: ws.map .word) := by
  obtain ⟨ts', last, hfold, htokens⟩ := foldl_lexChar_words hws [] w
  rw [tokenize, List.foldl_append, foldl_lexChar_gap hw, hfold]
  exact congrArg some htokens

/-- Such a line stands for what its tokens stand for. -/
theorem parseLine_words {w : List Char} {ws : List (List Char)} (hw : IsWord w) (hws : ∀ v ∈ ws, IsWord v) :
    parseLine (w ++ (ws.map (' ' :: ·)).flatten) = (parseTokens (.word w :: ws.map .word)).map some := by
  rw [parseLine, tokenize_words hw hws]

/-! ### Bytes -/

/-- A byte as a word (R82). -/
def byteWord (b : Byte) : List Char := '0' :: 'x' :: hexByte b

/-- R82, R186: a printed digit has its value. -/
theorem hexValue_hexDigit : ∀ n : Fin 16, hexValue (hexDigit n.val) = some n.val := by
  decide

theorem isWordChar_hexDigit : ∀ n : Fin 16, isWordChar (hexDigit n.val) = true := by
  decide

/-- R84: a printed byte is read back. -/
theorem parseHexByte_byteWord (b : Byte) : parseHexByte (byteWord b) = some b := by
  have hb := b.isLt
  have hhigh := hexValue_hexDigit ⟨b.toNat / 16, by omega⟩
  have hlow := hexValue_hexDigit ⟨b.toNat % 16, by omega⟩
  simp only [byteWord, hexByte, parseHexByte, hhigh, hlow]
  rw [Nat.div_add_mod, BitVec.ofNat_toNat, BitVec.setWidth_eq]

/-- A printed byte has no white space and no mark of R82 in it. -/
theorem isWord_byteWord (b : Byte) : IsWord (byteWord b) := by
  have hb := b.isLt
  refine ⟨List.cons_ne_nil _ _, ?_⟩
  simp only [byteWord, hexByte, List.all_cons, Bool.and_eq_true]
  exact ⟨rfl, rfl, isWordChar_hexDigit ⟨b.toNat / 16, by omega⟩, isWordChar_hexDigit ⟨b.toNat % 16, by omega⟩, rfl⟩

/-- R84: so is a list of printed bytes. -/
theorem parseByteWords_byteWords (bs : List Byte) : parseByteWords ((bs.map byteWord).map .word) = some bs := by
  induction bs with
  | nil => rfl
  | cons b bs ih => simp only [List.map_cons, parseByteWords, parseHexByte_byteWord, ih]

/-- Bytes are printed as words, each behind one space. -/
theorem flatten_map_printByte (bs : List Byte) :
    (bs.map printByte).flatten = ((bs.map byteWord).map (' ' :: ·)).flatten := by
  rw [List.map_map]
  rfl

/-! ### Lines -/

/-- R84: a line with a payload is read back, for a mnemonic `w` that takes a payload to the line `mk`. -/
theorem parseLine_printPayload {w : List Char} {mk : List Byte → AsmLine} (hw : IsWord w)
    (hempty : parseLine (w ++ printPayload []) = some (some (mk [])))
    (hmk : ∀ ts, parseTokens (.word w :: ts) = (parsePayload ts).map mk) (p : List Byte) :
    parseLine (w ++ printPayload p) = some (some (mk p)) := by
  cases p with
  | nil => exact hempty
  | cons b bs =>
    have hwords : ∀ v ∈ (b :: bs).map byteWord, IsWord v := by
      simpa using ⟨isWord_byteWord b, fun c _ => isWord_byteWord c⟩
    have hpayload : parsePayload (((b :: bs).map byteWord).map .word) = some (b :: bs) :=
      parseByteWords_byteWords (b :: bs)
    rw [printPayload, flatten_map_printByte, parseLine_words hw hwords, hmk, hpayload]
    rfl

/-- R84: every printed line is read back. -/
theorem parseLine_printLine (l : AsmLine) : parseLine (printLine l) = some (some l) := by
  cases l with
  | init | final | rdstatus | rddigest => decide
  | update p => exact parseLine_printPayload (by decide) (by decide) parseTokens_update p
  | hash p => exact parseLine_printPayload (by decide) (by decide) parseTokens_hash p
  | byte b =>
    have hwords : ∀ v ∈ [byteWord b], IsWord v := by
      simpa using isWord_byteWord b
    refine (parseLine_words (w := textByte) (ws := [byteWord b]) (by decide) hwords).trans ?_
    have htokens : parseTokens [.word textByte, .word (byteWord b)] = (parseHexByte (byteWord b)).map .byte := rfl
    rw [List.map_singleton, htokens, parseHexByte_byteWord]
    rfl

/-- R82, R84: the line of a command emits its frame. -/
theorem assembleLine_ofInstr {i : Instr} (h : i.wellFormed = true) :
    assembleLine (AsmLine.ofInstr i) = some (encode i) := by
  cases i with
  | init | final | rdstatus | rddigest => rfl
  | update p => exact assembleUpdate_of_wellFormed h

/-- Settles O45: the printed line is read back (`parseLine_printLine`), and what it emits stands in the stream by what
the decoder read there. -/
theorem disassemblyAssemblesBack : Obligations.DisassemblyAssemblesBack := by
  unfold Obligations.DisassemblyAssemblesBack
  refine ⟨fun bs rest i h => ?_, fun bs rest b h => ?_⟩
  · obtain ⟨hwf, hbs⟩ := Framing.decodeFrame_eq_command h
    exact ⟨AsmLine.ofInstr i, by rw [h, disassemble], parseLine_printLine _, encode i, assembleLine_ofInstr hwf, hbs⟩
  · obtain ⟨hbs, -⟩ := Framing.decodeFrame_eq_illegal h
    exact ⟨.byte b, by rw [h, disassemble], parseLine_printLine _, rfl, hbs⟩

end Sys2Proof.Proofs.Disassembly
end
